-- ==== Sys2Proof/Word.lean ====
section
/-!
DEFINITION. The bit vectors the spec treats as bits (00_scope.md R7, R9, R10): every value is unsigned.
-/
namespace Sys2Proof

/-- One byte: a general register, a memory byte, an immediate `kk`, a timer (R7, R21). -/
abbrev Byte := BitVec 8

/-- One instruction word, and the width of `pc`, `I` and a stack entry (R7, R25, R26, R27, R70). -/
abbrev Word := BitVec 16

/-- A 4-bit field: a register index `x` or `y`, the row count `n`, a key number 0x0-0xF (R74). -/
abbrev Nibble := BitVec 4

/-- A 12-bit address field `nnn` (R74). -/
abbrev Addr12 := BitVec 12

end Sys2Proof
end

