-- ==== Sys2Proof/Syntax.lean ====
section
/-!
DEFINITION. The 34 instructions (30_encoding.md R80), one constructor per row of spec/opcode_table.json.
-/
namespace Sys2Proof

/-- The instructions, in the order of R80. Only operands are kept: the bits R78 and R79 say are ignored are not. -/
inductive Instr where
  /-- CLS `0-E0` (R102). -/
  | cls
  /-- RET `0-EE` (R121). -/
  | ret
  /-- JP nnn `1nnn` (R122). -/
  | jp (nnn : Addr12)
  /-- CALL nnn `2nnn` (R123). -/
  | call (nnn : Addr12)
  /-- SE Vx, kk `3xkk` (R124). -/
  | seImm (x : Nibble) (kk : Byte)
  /-- SNE Vx, kk `4xkk` (R125). -/
  | sneImm (x : Nibble) (kk : Byte)
  /-- SE Vx, Vy `5xy-` (R126). -/
  | seReg (x y : Nibble)
  /-- LD Vx, kk `6xkk` (R152). -/
  | ldImm (x : Nibble) (kk : Byte)
  /-- ADD Vx, kk `7xkk` (R153). -/
  | addImm (x : Nibble) (kk : Byte)
  /-- LD Vx, Vy `8xy0` (R154). -/
  | ldReg (x y : Nibble)
  /-- OR Vx, Vy `8xy1` (R155). -/
  | orReg (x y : Nibble)
  /-- AND Vx, Vy `8xy2` (R156). -/
  | andReg (x y : Nibble)
  /-- XOR Vx, Vy `8xy3` (R157). -/
  | xorReg (x y : Nibble)
  /-- ADD Vx, Vy `8xy4` (R158). -/
  | addReg (x y : Nibble)
  /-- SUB Vx, Vy `8xy5` (R159). -/
  | subReg (x y : Nibble)
  /-- SHR Vx, Vy `8xy6` (R160). -/
  | shrReg (x y : Nibble)
  /-- SUBN Vx, Vy `8xy7` (R161). -/
  | subnReg (x y : Nibble)
  /-- SHL Vx, Vy `8xyE` (R162). -/
  | shlReg (x y : Nibble)
  /-- SNE Vx, Vy `9xy-` (R127). -/
  | sneReg (x y : Nibble)
  /-- LD I, nnn `Annn` (R180). -/
  | ldI (nnn : Addr12)
  /-- JP V0, nnn `Bnnn` (R128). -/
  | jpV0 (nnn : Addr12)
  /-- RND Vx, kk `Cxkk` (R164). -/
  | rnd (x : Nibble) (kk : Byte)
  /-- DRW Vx, Vy, n `Dxyn` (R103). -/
  | drw (x y n : Nibble)
  /-- SKP Vx `Ex9E` (R201). -/
  | skp (x : Nibble)
  /-- SKNP Vx `ExA1` (R202). -/
  | sknp (x : Nibble)
  /-- LD Vx, DT `Fx07` (R210). -/
  | ldVxDT (x : Nibble)
  /-- LD Vx, K `Fx0A` (R203). -/
  | ldVxK (x : Nibble)
  /-- LD DT, Vx `Fx15` (R211). -/
  | ldDTVx (x : Nibble)
  /-- LD ST, Vx `Fx18` (R212). -/
  | ldSTVx (x : Nibble)
  /-- ADD I, Vx `Fx1E` (R181). -/
  | addI (x : Nibble)
  /-- LD F, Vx `Fx29` (R182). -/
  | ldF (x : Nibble)
  /-- LD B, Vx `Fx33` (R183). -/
  | ldB (x : Nibble)
  /-- LD [I], Vx `Fx55` (R184). -/
  | storeRegs (x : Nibble)
  /-- LD Vx, [I] `Fx65` (R185). -/
  | loadRegs (x : Nibble)
  deriving DecidableEq, Repr

end Sys2Proof
end

