-- ==== Sys2Proof/WellFormed.lean ====
section
/-!
DEFINITION. Which operands an instruction may have (30_encoding.md R74, R85). An operand is a bit vector of its
field's width, so a term of `Instr` cannot hold one that does not fit: the checks are on the operands read as
plain numbers, the way an assembler line gives them.
-/
namespace Sys2Proof

/-- Operands as plain numbers: register indices `x` and `y`, the row count `n`, the byte `kk`, the address `nnn`. -/
structure Operands where
  x   : Nat := 0
  y   : Nat := 0
  n   : Nat := 0
  kk  : Nat := 0
  nnn : Nat := 0
  deriving DecidableEq, Repr

/-- Every operand fits its field (R74): V0-VF, rows 0..15, a byte 0x00-0xFF, an address 0x000-0xFFF (R85). -/
def Operands.fit (o : Operands) : Bool :=
  decide (o.x < 16) && decide (o.y < 16) && decide (o.n < 16) && decide (o.kk < 256) && decide (o.nnn < 4096)

/-- The operands of an instruction, as numbers; an operand it does not have is 0. -/
def Instr.operands : Instr → Operands
  | .cls => {}
  | .ret => {}
  | .jp nnn => { nnn := nnn.toNat }
  | .call nnn => { nnn := nnn.toNat }
  | .seImm x kk => { x := x.toNat, kk := kk.toNat }
  | .sneImm x kk => { x := x.toNat, kk := kk.toNat }
  | .seReg x y => { x := x.toNat, y := y.toNat }
  | .ldImm x kk => { x := x.toNat, kk := kk.toNat }
  | .addImm x kk => { x := x.toNat, kk := kk.toNat }
  | .ldReg x y => { x := x.toNat, y := y.toNat }
  | .orReg x y => { x := x.toNat, y := y.toNat }
  | .andReg x y => { x := x.toNat, y := y.toNat }
  | .xorReg x y => { x := x.toNat, y := y.toNat }
  | .addReg x y => { x := x.toNat, y := y.toNat }
  | .subReg x y => { x := x.toNat, y := y.toNat }
  | .shrReg x y => { x := x.toNat, y := y.toNat }
  | .subnReg x y => { x := x.toNat, y := y.toNat }
  | .shlReg x y => { x := x.toNat, y := y.toNat }
  | .sneReg x y => { x := x.toNat, y := y.toNat }
  | .ldI nnn => { nnn := nnn.toNat }
  | .jpV0 nnn => { nnn := nnn.toNat }
  | .rnd x kk => { x := x.toNat, kk := kk.toNat }
  | .drw x y n => { x := x.toNat, y := y.toNat, n := n.toNat }
  | .skp x => { x := x.toNat }
  | .sknp x => { x := x.toNat }
  | .ldVxDT x => { x := x.toNat }
  | .ldVxK x => { x := x.toNat }
  | .ldDTVx x => { x := x.toNat }
  | .ldSTVx x => { x := x.toNat }
  | .addI x => { x := x.toNat }
  | .ldF x => { x := x.toNat }
  | .ldB x => { x := x.toNat }
  | .storeRegs x => { x := x.toNat }
  | .loadRegs x => { x := x.toNat }

/-- An instruction is well formed when its operands fit their fields. -/
def WellFormed (i : Instr) : Bool := i.operands.fit

end Sys2Proof
end

