-- ==== Sys2Proof/Decode.lean ====
section
/-!
DEFINITION. The decoder (30_encoding.md R74, R77, R78, R79) and the encoder (R80), each written from the spec's
tables. The opcode numbers are the spec's (92_eei_decisions.md D2, D3), which its source
does not give: UNVERIFIED, unsafe, log entry 1.
-/
namespace Sys2Proof

/-- Big-endian combination: the byte at the lower address is bits 15-8 (R54, R71). -/
def wordOfBytes (hi lo : Byte) : Word := hi ++ lo

/-- The two bytes of a word in address order (R54). -/
def bytesOfWord (w : Word) : List Byte := [w.extractLsb' 8 8, w.extractLsb' 0 8]

/-- `top <- w[15:12]` (R74). -/
def topOf (w : Word) : Nibble := w.extractLsb' 12 4

/-- `x <- w[11:8]` (R74). -/
def xOf (w : Word) : Nibble := w.extractLsb' 8 4

/-- `y <- w[7:4]` (R74). -/
def yOf (w : Word) : Nibble := w.extractLsb' 4 4

/-- `n <- w[3:0]` (R74). -/
def nOf (w : Word) : Nibble := w.extractLsb' 0 4

/-- `kk <- w[7:0]` (R74). -/
def kkOf (w : Word) : Byte := w.extractLsb' 0 8

/-- `nnn <- w[11:0]` (R74). -/
def nnnOf (w : Word) : Addr12 := w.extractLsb' 0 12

/-- Why bytes are no instruction. -/
inductive DecodeError where
  /-- No row of R80 matches the word (R82). -/
  | illegalInstruction (w : Word)
  /-- Fewer than two bytes are left; no fetch meets it, since a fetch always reads two (R71). DESIGN CHOICE, safe;
  log entry 2. -/
  | truncated
  deriving DecidableEq, Repr

/-- Family 0x0 is split by the low byte; bits 11-8 are not examined (R78). -/
def decodeFamily0 (w : Word) : Except DecodeError Instr :=
  if kkOf w = 0xE0#8 then .ok .cls
  else if kkOf w = 0xEE#8 then .ok .ret
  else .error (.illegalInstruction w)

/-- Family 0x8 is split by the low nibble (R78). -/
def decodeFamily8 (w : Word) : Except DecodeError Instr :=
  if nOf w = 0x0#4 then .ok (.ldReg (xOf w) (yOf w))
  else if nOf w = 0x1#4 then .ok (.orReg (xOf w) (yOf w))
  else if nOf w = 0x2#4 then .ok (.andReg (xOf w) (yOf w))
  else if nOf w = 0x3#4 then .ok (.xorReg (xOf w) (yOf w))
  else if nOf w = 0x4#4 then .ok (.addReg (xOf w) (yOf w))
  else if nOf w = 0x5#4 then .ok (.subReg (xOf w) (yOf w))
  else if nOf w = 0x6#4 then .ok (.shrReg (xOf w) (yOf w))
  else if nOf w = 0x7#4 then .ok (.subnReg (xOf w) (yOf w))
  else if nOf w = 0xE#4 then .ok (.shlReg (xOf w) (yOf w))
  else .error (.illegalInstruction w)

/-- Family 0xE is split by the low byte (R78). -/
def decodeFamilyE (w : Word) : Except DecodeError Instr :=
  if kkOf w = 0x9E#8 then .ok (.skp (xOf w))
  else if kkOf w = 0xA1#8 then .ok (.sknp (xOf w))
  else .error (.illegalInstruction w)

/-- Family 0xF is split by the low byte (R78). -/
def decodeFamilyF (w : Word) : Except DecodeError Instr :=
  if kkOf w = 0x07#8 then .ok (.ldVxDT (xOf w))
  else if kkOf w = 0x0A#8 then .ok (.ldVxK (xOf w))
  else if kkOf w = 0x15#8 then .ok (.ldDTVx (xOf w))
  else if kkOf w = 0x18#8 then .ok (.ldSTVx (xOf w))
  else if kkOf w = 0x1E#8 then .ok (.addI (xOf w))
  else if kkOf w = 0x29#8 then .ok (.ldF (xOf w))
  else if kkOf w = 0x33#8 then .ok (.ldB (xOf w))
  else if kkOf w = 0x55#8 then .ok (.storeRegs (xOf w))
  else if kkOf w = 0x65#8 then .ok (.loadRegs (xOf w))
  else .error (.illegalInstruction w)

/-- `Decode(w)` (R77, R78): the top nibble selects the family; twelve families hold one instruction each, and
families 0x5 and 0x9 ignore bits 3-0 (R79). Total: a word that is no instruction is rejected with the word (R82). -/
def decode (w : Word) : Except DecodeError Instr :=
  if topOf w = 0x0#4 then decodeFamily0 w
  else if topOf w = 0x1#4 then .ok (.jp (nnnOf w))
  else if topOf w = 0x2#4 then .ok (.call (nnnOf w))
  else if topOf w = 0x3#4 then .ok (.seImm (xOf w) (kkOf w))
  else if topOf w = 0x4#4 then .ok (.sneImm (xOf w) (kkOf w))
  else if topOf w = 0x5#4 then .ok (.seReg (xOf w) (yOf w))
  else if topOf w = 0x6#4 then .ok (.ldImm (xOf w) (kkOf w))
  else if topOf w = 0x7#4 then .ok (.addImm (xOf w) (kkOf w))
  else if topOf w = 0x8#4 then decodeFamily8 w
  else if topOf w = 0x9#4 then .ok (.sneReg (xOf w) (yOf w))
  else if topOf w = 0xA#4 then .ok (.ldI (nnnOf w))
  else if topOf w = 0xB#4 then .ok (.jpV0 (nnnOf w))
  else if topOf w = 0xC#4 then .ok (.rnd (xOf w) (kkOf w))
  else if topOf w = 0xD#4 then .ok (.drw (xOf w) (yOf w) (nOf w))
  else if topOf w = 0xE#4 then decodeFamilyE w
  else decodeFamilyF w

/-- The decoder on bytes in address order: one instruction is two bytes (R70, R84), the rest is given back. -/
def decodeBytes : List Byte → Except DecodeError (Instr × List Byte)
  | hi :: lo :: rest =>
    match decode (wordOfBytes hi lo) with
    | .ok i => .ok (i, rest)
    | .error e => .error e
  | _ => .error .truncated

/-- The word of an instruction (R80's pattern column); an ignored nibble is written 0 (DESIGN CHOICE, safe;
log entry 2). -/
def encode : Instr → Word
  | .cls => 0x00E0#16
  | .ret => 0x00EE#16
  | .jp nnn => 0x1#4 ++ nnn
  | .call nnn => 0x2#4 ++ nnn
  | .seImm x kk => 0x3#4 ++ x ++ kk
  | .sneImm x kk => 0x4#4 ++ x ++ kk
  | .seReg x y => 0x5#4 ++ x ++ y ++ 0x0#4
  | .ldImm x kk => 0x6#4 ++ x ++ kk
  | .addImm x kk => 0x7#4 ++ x ++ kk
  | .ldReg x y => 0x8#4 ++ x ++ y ++ 0x0#4
  | .orReg x y => 0x8#4 ++ x ++ y ++ 0x1#4
  | .andReg x y => 0x8#4 ++ x ++ y ++ 0x2#4
  | .xorReg x y => 0x8#4 ++ x ++ y ++ 0x3#4
  | .addReg x y => 0x8#4 ++ x ++ y ++ 0x4#4
  | .subReg x y => 0x8#4 ++ x ++ y ++ 0x5#4
  | .shrReg x y => 0x8#4 ++ x ++ y ++ 0x6#4
  | .subnReg x y => 0x8#4 ++ x ++ y ++ 0x7#4
  | .shlReg x y => 0x8#4 ++ x ++ y ++ 0xE#4
  | .sneReg x y => 0x9#4 ++ x ++ y ++ 0x0#4
  | .ldI nnn => 0xA#4 ++ nnn
  | .jpV0 nnn => 0xB#4 ++ nnn
  | .rnd x kk => 0xC#4 ++ x ++ kk
  | .drw x y n => 0xD#4 ++ x ++ y ++ n
  | .skp x => 0xE#4 ++ x ++ 0x9E#8
  | .sknp x => 0xE#4 ++ x ++ 0xA1#8
  | .ldVxDT x => 0xF#4 ++ x ++ 0x07#8
  | .ldVxK x => 0xF#4 ++ x ++ 0x0A#8
  | .ldDTVx x => 0xF#4 ++ x ++ 0x15#8
  | .ldSTVx x => 0xF#4 ++ x ++ 0x18#8
  | .addI x => 0xF#4 ++ x ++ 0x1E#8
  | .ldF x => 0xF#4 ++ x ++ 0x29#8
  | .ldB x => 0xF#4 ++ x ++ 0x33#8
  | .storeRegs x => 0xF#4 ++ x ++ 0x55#8
  | .loadRegs x => 0xF#4 ++ x ++ 0x65#8

/-- The bytes of an instruction in address order. -/
def encodeBytes (i : Instr) : List Byte := bytesOfWord (encode i)

/-- R80's mask column: the bits its row examines. -/
def opcodeMask : Instr → Word
  | .cls | .ret => 0xF0FF#16
  | .jp _ | .call _ | .seImm _ _ | .sneImm _ _ | .seReg _ _ | .ldImm _ _ | .addImm _ _ => 0xF000#16
  | .ldReg _ _ | .orReg _ _ | .andReg _ _ | .xorReg _ _ | .addReg _ _ => 0xF00F#16
  | .subReg _ _ | .shrReg _ _ | .subnReg _ _ | .shlReg _ _ => 0xF00F#16
  | .sneReg _ _ | .ldI _ | .jpV0 _ | .rnd _ _ | .drw _ _ _ => 0xF000#16
  | .skp _ | .sknp _ | .ldVxDT _ | .ldVxK _ | .ldDTVx _ | .ldSTVx _ => 0xF0FF#16
  | .addI _ | .ldF _ | .ldB _ | .storeRegs _ | .loadRegs _ => 0xF0FF#16

/-- R80's match column: a word `w` selects the row when `w & mask = match`. -/
def opcodeMatch : Instr → Word
  | .cls => 0x00E0#16
  | .ret => 0x00EE#16
  | .jp _ => 0x1000#16
  | .call _ => 0x2000#16
  | .seImm _ _ => 0x3000#16
  | .sneImm _ _ => 0x4000#16
  | .seReg _ _ => 0x5000#16
  | .ldImm _ _ => 0x6000#16
  | .addImm _ _ => 0x7000#16
  | .ldReg _ _ => 0x8000#16
  | .orReg _ _ => 0x8001#16
  | .andReg _ _ => 0x8002#16
  | .xorReg _ _ => 0x8003#16
  | .addReg _ _ => 0x8004#16
  | .subReg _ _ => 0x8005#16
  | .shrReg _ _ => 0x8006#16
  | .subnReg _ _ => 0x8007#16
  | .shlReg _ _ => 0x800E#16
  | .sneReg _ _ => 0x9000#16
  | .ldI _ => 0xA000#16
  | .jpV0 _ => 0xB000#16
  | .rnd _ _ => 0xC000#16
  | .drw _ _ _ => 0xD000#16
  | .skp _ => 0xE09E#16
  | .sknp _ => 0xE0A1#16
  | .ldVxDT _ => 0xF007#16
  | .ldVxK _ => 0xF00A#16
  | .ldDTVx _ => 0xF015#16
  | .ldSTVx _ => 0xF018#16
  | .addI _ => 0xF01E#16
  | .ldF _ => 0xF029#16
  | .ldB _ => 0xF033#16
  | .storeRegs _ => 0xF055#16
  | .loadRegs _ => 0xF065#16

/-- The bits of its word an instruction's row and operands use; the others are the ignored ones (R78, R79). -/
def usedBits : Instr → Word
  | .cls | .ret => 0xF0FF#16
  | .seReg _ _ | .sneReg _ _ => 0xFFF0#16
  | .jp _ | .call _ | .seImm _ _ | .sneImm _ _ | .ldImm _ _ | .addImm _ _ => 0xFFFF#16
  | .ldReg _ _ | .orReg _ _ | .andReg _ _ | .xorReg _ _ | .addReg _ _ => 0xFFFF#16
  | .subReg _ _ | .shrReg _ _ | .subnReg _ _ | .shlReg _ _ => 0xFFFF#16
  | .ldI _ | .jpV0 _ | .rnd _ _ | .drw _ _ _ => 0xFFFF#16
  | .skp _ | .sknp _ | .ldVxDT _ | .ldVxK _ | .ldDTVx _ | .ldSTVx _ => 0xFFFF#16
  | .addI _ | .ldF _ | .ldB _ | .storeRegs _ | .loadRegs _ => 0xFFFF#16

/-- The instruction the decoder reads from table bits `w` of an instruction of `nbits` bits: its one word (R70),
bit 0 the least significant, laid out as two bytes in address order and given to the decoder. -/
def decodeTableWord (nbits w : Nat) : Option Instr :=
  match decodeBytes (bytesOfWord (BitVec.ofNat 16 (w % 2 ^ nbits))) with
  | .ok (i, _) => some i
  | .error _ => none

end Sys2Proof
end

