-- ==== Sys2Proof/Config.lean ====
section
/-!
DEFINITION. The fixed parameters of the machine (00_scope.md R7) and its one free value (R8).
-/
namespace Sys2Proof

/-- `MEM_SIZE`: addresses 0x000-0xFFF name a byte (R7, R50). -/
abbrev Config.memSize : Nat := 4096

/-- `PROG_START`, which is also `RESERVED_END`: below it memory is reserved (R7, R51). -/
abbrev Config.progStart : Nat := 0x200

/-- The last address a word can be fetched at (R73, R51). -/
abbrev Config.fetchLast : Nat := 0xFFE

/-- `MAX_ROM`: the longest program, 4096 - 0x200 bytes (R7, R264). -/
abbrev Config.maxRom : Nat := 3584

/-- `GLYPH_SIZE`: 16 glyphs of `GLYPH_STRIDE` = 5 bytes, from `GLYPH_BASE` = 0x000 (R7, R31). -/
abbrev Config.glyphSize : Nat := 80

/-- The largest stack pointer; the largest nesting depth (R7, R28). -/
abbrev Config.spLast : Nat := 15

/-- The free value of the model (R8 `RAND`, R163): the byte the environment answers the `draw`-th random draw
with. It has no body, so a proof about it holds for every byte. DESIGN CHOICE, safe; log entry 4. -/
opaque Config.randomByte (draw : Nat) : Byte

end Sys2Proof
end

