-- ==== Sys2Proof/Machine/Glyphs.lean ====
section
/-!
DEFINITION. The glyph table (10_state.md R31; 00_scope.md R8): a parameter of the machine, with the spec's default.
-/
namespace Sys2Proof.Machine

/-- `GLYPH_TABLE`: 16 glyphs of 5 bytes, glyph `d` at 5d .. 5d+4, top row first (R31). -/
abbrev GlyphTable := Vector Byte 80

/-- The glyphs of 0-7 in the spec's default table (R31). -/
def standardGlyphs0to7 : List Byte :=
  [0xF0#8, 0x90#8, 0x90#8, 0x90#8, 0xF0#8,   0x20#8, 0x60#8, 0x20#8, 0x20#8, 0x70#8,
   0xF0#8, 0x10#8, 0xF0#8, 0x80#8, 0xF0#8,   0xF0#8, 0x10#8, 0xF0#8, 0x10#8, 0xF0#8,
   0x90#8, 0x90#8, 0xF0#8, 0x10#8, 0x10#8,   0xF0#8, 0x80#8, 0xF0#8, 0x10#8, 0xF0#8,
   0xF0#8, 0x80#8, 0xF0#8, 0x90#8, 0xF0#8,   0xF0#8, 0x10#8, 0x20#8, 0x40#8, 0x40#8]

/-- The glyphs of 8-F in the spec's default table (R31). -/
def standardGlyphs8toF : List Byte :=
  [0xF0#8, 0x90#8, 0xF0#8, 0x90#8, 0xF0#8,   0xF0#8, 0x90#8, 0xF0#8, 0x10#8, 0xF0#8,
   0xF0#8, 0x90#8, 0xF0#8, 0x90#8, 0x90#8,   0xE0#8, 0x90#8, 0xE0#8, 0x90#8, 0xE0#8,
   0xF0#8, 0x80#8, 0x80#8, 0x80#8, 0xF0#8,   0xE0#8, 0x90#8, 0x90#8, 0x90#8, 0xE0#8,
   0xF0#8, 0x80#8, 0xF0#8, 0x80#8, 0xF0#8,   0xF0#8, 0x80#8, 0xF0#8, 0x80#8, 0x80#8]

/-- The spec's default `GLYPH_TABLE` (R31). PRESUMED: the spec takes it from general knowledge, not from its source
(92_eei_decisions.md D13); unsafe; log entry 3. -/
def standardGlyphs : GlyphTable := ⟨⟨standardGlyphs0to7 ++ standardGlyphs8toF⟩, rfl⟩

/-- What address `a` reads as while no entry of memory lists it: the reset contents (R31, R37), that is the glyph
table at 0x000-0x04F and 0 everywhere else. -/
def unlistedByte (g : GlyphTable) (a : Nat) : Byte :=
  if h : a < 80 then g[a] else 0#8

end Sys2Proof.Machine
end

