-- ==== Sys2Proof/Machine/State.lean ====
section
/-!
DEFINITION. The architectural state (10_state.md R20), the faults (60_exceptions.md R221) and the reset state (R37).
-/
namespace Sys2Proof.Machine

/-- The faults of R221, each with the value it carries. Taking one (R224) gives a NEXT state whose fault record
holds it; `Host.Outcome.fault` carries it when a STEP or TICK meets the core that it halted (log entry 5, safe). -/
inductive Fault where
  /-- Code 1: a program of `len` bytes is longer than 3584. Raised by the LOAD_ROM event (R264). Safe: the spec's own stop. -/
  | romTooLarge (len : Nat)
  /-- Code 2: no row of the opcode map matches `w`. Raised by a STEP at decode (R82). Safe: the spec's own stop. -/
  | illegalInstruction (w : Word)
  /-- Code 3: a fetch outside 0x200..0xFFE. Raised by a STEP at fetch (R73). Safe: the spec's own stop. -/
  | pcOutOfBounds (pc : Word)
  /-- Code 4: CALL with sp = 15; carries the CALL's address. Raised by CALL (R123). Safe: the spec's own stop. -/
  | stackOverflow (pc : Word)
  /-- Code 5: RET with sp = 0; carries the RET's address. Raised by RET (R121). Safe: the spec's own stop. -/
  | stackUnderflow (pc : Word)
  /-- Code 6: a data access at `addr`, 0x1000 or above. Raised by DRW, LD B, LD [I], LD Vx,[I] (R52, R53). Safe: the spec's own stop. -/
  | memOutOfBounds (addr : Nat)
  /-- Code 7: a data write at `addr`, below 0x200. Raised by LD B and LD [I] (R53). Safe: the spec's own stop. -/
  | reservedWrite (addr : Nat)
  /-- Code 8: a key number `k` of 16 or more. Raised by SKP and SKNP (R200). Safe: the spec's own stop. -/
  | keyIndexOutOfRange (k : Byte)
  deriving DecidableEq, Repr

/-- The refusals. R12: "The machine never refuses an instruction word", so no meaning answers with one. -/
inductive Refusal where
  /-- An arm of `exec` that has no meaning yet; none is left. Safe: it stops where the machine goes on. -/
  | notModelled (mnemonic : String)
  deriving DecidableEq, Repr

/-- The framebuffer (R32): 32 rows of 64 one-bit cells. Bit `c` of row `r` is the cell of column `c` and row `r`,
`fb[r * 64 + c]` of the spec (R100). DESIGN CHOICE, safe; log entry 14. -/
abbrev Framebuffer := Vector (BitVec 64) 32

/-- The state: R20's twelve items, and two fields of the model's own (`glyphs`, `draws`). -/
structure State where
  /-- `mem` (R31): the bytes that differ from what an unlisted address reads as, by rising address. -/
  mem    : List Host.Cell
  /-- The model's own: the parameter `GLYPH_TABLE` (R8, R31), which no step changes. PRESUMED, unsafe; log entry 3. -/
  glyphs : GlyphTable
  /-- `V[0x0..0xF]`, the general registers (R21). -/
  V      : Vector Byte 16
  /-- The index register (R25). -/
  I      : Word
  /-- The program counter: the address of the instruction being executed (R26). -/
  pc     : Word
  /-- `stack[0..15]` (R27). -/
  stack  : Vector Word 16
  /-- The stack pointer, 0..15 (R28). -/
  sp     : Fin 16
  /-- The delay timer (R29). -/
  DT     : Byte
  /-- The sound timer (R30). -/
  ST     : Byte
  /-- The framebuffer (R32). -/
  fb     : Framebuffer
  /-- The key latches 0x0-0xF (R33). -/
  keypad : Vector Bool 16
  /-- The redraw flag (R34). -/
  redraw : Bool
  /-- The fault record; while it is not `none` the core is halted (R35). -/
  fault  : Option Fault
  /-- The model's own: how many random bytes have been drawn, the place RND's free value is read from (R163). DESIGN CHOICE,
  safe; log entry 4. -/
  draws  : Nat
  deriving DecidableEq, Repr

/-- The machine right after RESET (R37, R260): every item of the spec at the value R37 gives it. -/
def State.reset : State where
  mem    := []
  glyphs := standardGlyphs
  V      := Vector.replicate 16 0#8
  I      := 0#16
  pc     := 0x200#16
  stack  := Vector.replicate 16 0#16
  sp     := 0
  DT     := 0#8
  ST     := 0#8
  fb     := Vector.replicate 32 0#64
  keypad := Vector.replicate 16 false
  redraw := false
  fault  := none
  draws  := 0

end Sys2Proof.Machine
end

