-- ==== Sys2Proof/Machine/Ops.lean ====
section
/-!
DEFINITION. The named operations over memory, registers, stack, framebuffer and keypad; the fetch; and taking a
fault (60_exceptions.md R224), which is the only exceptional mechanism of this machine (R220).
-/
namespace Sys2Proof.Machine

/-- What a step answers. -/
abbrev Result := Host.Outcome State Fault Refusal

/-! ### Memory -/

/-- The byte listed at address `a`, if one is. -/
def Memory.lookup : List Host.Cell → Nat → Option Byte
  | [], _ => none
  | c :: m, a => if c.1 = a then some c.2 else Memory.lookup m a

/-- Insert a cell into a list sorted by address. -/
def Memory.insert (c : Host.Cell) : List Host.Cell → List Host.Cell
  | [] => [c]
  | d :: m => if c.1 < d.1 then c :: d :: m else d :: Memory.insert c m

/-- Memory with the byte at `a` replaced by `v`; a byte equal to the unlisted one is not listed, so that equal
memories are equal lists. -/
def Memory.put (g : GlyphTable) (m : List Host.Cell) (a : Nat) (v : Byte) : List Host.Cell :=
  if v = unlistedByte g a then m.filter (fun c => c.1 ≠ a)
  else Memory.insert (a, v) (m.filter (fun c => c.1 ≠ a))

/-- The canonical form of memory: addresses strictly rising and inside 0x000-0xFFF, no entry equal to the
unlisted byte (DESIGN CHOICE, safe; log entry 9). -/
abbrev Memory.wf (g : GlyphTable) (m : List Host.Cell) : Prop :=
  m.Pairwise (fun c d => c.1 < d.1) ∧ ∀ c ∈ m, c.1 < Config.memSize ∧ c.2 ≠ unlistedByte g c.1

/-- The byte `mem[a]` (R52's read, without its bound check). -/
def State.byteAt (s : State) (a : Nat) : Byte :=
  (Memory.lookup s.mem a).getD (unlistedByte s.glyphs a)

/-- `mem[a] <- v` (R53's write, without its guards). -/
def State.setByte (s : State) (a : Nat) (v : Byte) : State :=
  { s with mem := Memory.put s.glyphs s.mem a v }

/-! ### Registers, timers, flags -/

/-- Read `V[r]` (R11). -/
def State.reg (s : State) (r : Nibble) : Byte := s.V[r.toNat]

/-- `V[r] <- v` (R11). -/
def State.setReg (s : State) (r : Nibble) (v : Byte) : State := { s with V := s.V.set r.toNat v }

/-- VF, the flag register (R22). -/
def vf : Nibble := 0xF#4

/-- `I <- v` (R25). -/
def State.setI (s : State) (v : Word) : State := { s with I := v }

/-- `pc <- target` (R26, R129): nothing is checked here; the fetch checks (R73). -/
def State.setPc (s : State) (target : Word) : State := { s with pc := target }

/-- `pc <- pc + k`. R87: reachable values stay below 2^16, so the register's width is never felt (DEDUCED,
unsafe only in states no run reaches; log entry 8). -/
def State.advance (s : State) (k : Word) : State := { s with pc := s.pc + k }

/-- A conditional skip (R120): `pc` advances by 4 when the condition holds and by 2 otherwise; the skipped word is
not fetched. -/
def State.skipIf (s : State) (c : Bool) : State := s.advance (if c then 4#16 else 2#16)

/-- `DT <- v` (R29). -/
def State.setDT (s : State) (v : Byte) : State := { s with DT := v }

/-- `ST <- v` (R30). -/
def State.setST (s : State) (v : Byte) : State := { s with ST := v }

/-- `redraw <- b` (R34). -/
def State.setRedraw (s : State) (b : Bool) : State := { s with redraw := b }

/-! ### Call stack -/

/-- CALL's two writes (R123): `sp <- sp + 1`, then `stack[sp] <- v`. -/
def State.push (s : State) (v : Word) : State :=
  { s with sp := s.sp + 1, stack := s.stack.set (s.sp + 1 : Fin 16).val v }

/-- `stack[sp]`, the most recent saved entry (R28). -/
def State.top (s : State) : Word := s.stack[s.sp.val]

/-- `sp <- sp - 1` (R121); the entry is not cleared (R27). -/
def State.pop (s : State) : State := { s with sp := s.sp - 1 }

/-! ### Framebuffer and sprite engine -/

/-- Cell `c` of the framebuffer, `fb[c]` (R32): column `c mod 64` of row `c div 64`. Cells are 0..2047; a
number past them, which nothing asks for, wraps (DESIGN CHOICE, safe; log entry 14). -/
def fbCell (fb : Framebuffer) (c : Nat) : Bool :=
  (fb[c / 64 % 32]'(Nat.mod_lt _ (by decide))).getLsbD (c % 64)

/-- `fb[c] <- fb[c] ^ bit` (R103). -/
def fbXor (fb : Framebuffer) (c : Nat) (bit : Bool) : Framebuffer :=
  fb.set (c / 64 % 32)
    ((fb[c / 64 % 32]'(Nat.mod_lt _ (by decide))) ^^^ (if bit then BitVec.twoPow 64 (c % 64) else 0#64))
    (Nat.mod_lt _ (by decide))

/-- Every cell 0 (R102). -/
def fbClear : Framebuffer := Vector.replicate 32 0#64

/-- The cell of column `x` and row `y`, both wrapped (R100): the `mod 64` binds to the column alone. -/
def fbIndex (x y : Nat) : Nat := y % 32 * 64 + x % 64

/-- The sprite bit of column `col`: bit 7 is the leftmost column, `b[7 - col]` (R101; the spec's source does not say
which bit is which: UNVERIFIED, unsafe, log entry 12). -/
def spriteBit (b : Byte) (col : Nat) : Bool := b.getLsbD (7 - col)

/-- A framebuffer being drawn on, and the collision seen so far. -/
structure Canvas where
  fb        : Framebuffer
  collision : Bool
  deriving DecidableEq, Repr

/-- One sprite bit onto cell `c` (R103's inner loop body): a lit cell under a set bit is a collision. -/
def drawBit (k : Canvas) (c : Nat) (bit : Bool) : Canvas :=
  { fb := fbXor k.fb c bit, collision := k.collision || (bit && fbCell k.fb c) }

/-- One sprite row: 8 columns from column `x0` of row `y` (R103). -/
def drawRow (k : Canvas) (b : Byte) (x0 y : Nat) : Canvas :=
  (List.range 8).foldl (fun k col => drawBit k (fbIndex (x0 + col) y) (spriteBit b col)) k

/-- `n` sprite rows, row `r` taken from `bytes r`, from column `x0` and row `y0` (R103). -/
def drawRows (k : Canvas) (bytes : Nat → Byte) (x0 y0 n : Nat) : Canvas :=
  (List.range n).foldl (fun k r => drawRow k (bytes r) x0 (y0 + r)) k

/-- The framebuffer replaced. -/
def State.setFb (s : State) (fb : Framebuffer) : State := { s with fb := fb }

/-- `fb[c]` of the state (R11). -/
def State.cell (s : State) (c : Nat) : Bool := fbCell s.fb c

/-! ### Keypad -/

/-- `keypad[k]` (R33). -/
def State.key (s : State) (k : Nibble) : Bool := s.keypad[k.toNat]

/-- `keypad[k] <- b` (R202, R244). -/
def State.setKey (s : State) (k : Nibble) (b : Bool) : State := { s with keypad := s.keypad.set k.toNat b }

/-- The first pressed key of an ascending scan of the 16 keys (R203). -/
def State.firstKey (s : State) : Option Nibble :=
  ((List.range 16).map (BitVec.ofNat 4)).find? (fun k => s.key k)

/-! ### Random source -/

/-- The byte `draw_random()` answers now: free (R163). DESIGN CHOICE, safe; log entry 4. -/
def State.randomByte (s : State) : Byte := Config.randomByte s.draws

/-- A draw has been made (R163: exactly one per RND). -/
def State.drawn (s : State) : State := { s with draws := s.draws + 1 }

/-! ### Faults -/

/-- Fault entry (R224): the fault record is set; `pc` and everything else stay as they were before the event (R225).
The core is halted from here on. -/
def State.raise (s : State) (f : Fault) : State := { s with fault := some f }

/-- Run the checks of an event first (R11): the first failing one is taken as a fault of the state before the
event, and none of its writes is made; otherwise the event's effect is the next state. -/
def guarded (check : Option Fault) (s effect : State) : Result :=
  match check with
  | some f => .next (s.raise f)
  | none => .next effect

/-- A STEP or TICK on a core halted by `f` has no step (R72, R224, R236): there is no next state and nothing new is
reported. DESIGN CHOICE, safe; log entry 5. -/
def haltedBy (f : Fault) : Result := .fault f

/-- The way out of the halted state is RESET alone (R227, R260): every item of the spec at R37's value. The model's
own fields are kept: the table is a parameter (R38), and the draws already made are not made again (DESIGN CHOICE,
safe; log entry 6). -/
def State.restart (s : State) : State := { State.reset with glyphs := s.glyphs, draws := s.draws }

/-- The code of a fault (R221). -/
def Fault.code : Fault → Nat
  | .romTooLarge _ => 1
  | .illegalInstruction _ => 2
  | .pcOutOfBounds _ => 3
  | .stackOverflow _ => 4
  | .stackUnderflow _ => 5
  | .memOutOfBounds _ => 6
  | .reservedWrite _ => 7
  | .keyIndexOutOfRange _ => 8

/-! ### Fetch -/

/-- The fetch range, 0x200 <= pc <= 0xFFE (R73). -/
def fetchable (pc : Word) : Bool :=
  decide (Config.progStart ≤ pc.toNat) && decide (pc.toNat ≤ Config.fetchLast)

/-- The word at `pc`, big-endian (R71); a fetch changes nothing. -/
def State.fetchWord (s : State) : Word := wordOfBytes (s.byteAt s.pc.toNat) (s.byteAt (s.pc.toNat + 1))

/-- The bytes of `bs` stored from address `a` on, past the write guard (R264's copy). -/
def State.setBytes (s : State) (a : Nat) : List Byte → State
  | [] => s
  | b :: bs => (s.setByte a b).setBytes (a + 1) bs

end Sys2Proof.Machine
end

