-- ==== Sys2Proof/Machine/Flags.lean ====
section
/-!
DEFINITION. The flag computations (43_arithmetic.md R150): what VF receives. Sums and differences are taken exactly,
on unsigned values, and compared there.
-/
namespace Sys2Proof.Machine

/-- `bool_to_byte` (R10). -/
def boolToByte (b : Bool) : Byte := if b then 1#8 else 0#8

/-- The carry of ADD: the exact sum is over 255 (R150, R158). -/
def carry (a b : Byte) : Byte := boolToByte (decide (255 < a.toNat + b.toNat))

/-- The not-borrow of `a - b`: 1 when `a >= b`, equal operands included (R150, R159, R161). -/
def notBorrow (a b : Byte) : Byte := boolToByte (decide (b.toNat ≤ a.toNat))

/-- The bit SHR shifts out (R160). -/
def lowBit (v : Byte) : Byte := boolToByte (v.getLsbD 0)

/-- The bit SHL shifts out (R162). -/
def highBit (v : Byte) : Byte := boolToByte (v.getLsbD 7)

/-- A result into `V[x]`, then the flag into VF, last (R22, R151). -/
def State.setResultFlag (s : State) (x : Nibble) (result flag : Byte) : State :=
  (s.setReg x result).setReg vf flag

end Sys2Proof.Machine
end

