-- ==== Sys2Proof/Machine/Operands.lean ====
section
/-!
DEFINITION. Operand forms (30_encoding.md R75, R76; 44_index_memory.md, head): the index register plus a constant
offset, the checks an access through it makes, the key number of a register, the zero-extended address.
-/
namespace Sys2Proof.Machine

/-- `zext_16(nnn)` (R75). -/
def zext16 (nnn : Addr12) : Word := nnn.setWidth 16

/-- A register's value widened to 16 bits (R10). -/
def wide (v : Byte) : Word := v.setWidth 16

/-- The register numbered `k`, for the loops over `V[0] .. V[x-1]` (R184, R185). -/
def nthReg (k : Nat) : Nibble := BitVec.ofNat 4 k

/-- The address `I + k`, an exact integer with no wrap (R56). -/
def State.addr (s : State) (k : Nat) : Nat := s.I.toNat + k

/-- `MemRead`'s check (R52). -/
def readCheck (a : Nat) : Option Fault :=
  if Config.memSize ≤ a then some (.memOutOfBounds a) else none

/-- `MemWrite`'s checks, in R53's order. -/
def writeCheck (a : Nat) : Option Fault :=
  if Config.memSize ≤ a then some (.memOutOfBounds a)
  else if a < Config.progStart then some (.reservedWrite a)
  else none

/-- The check phase over the `n` addresses from `a` on, ascending: the first failing one is reported (R226). -/
def firstFault (check : Nat → Option Fault) (a : Nat) : Nat → Option Fault
  | 0 => none
  | n + 1 =>
    match check a with
    | some f => some f
    | none => firstFault check (a + 1) n

/-- The check phase of `n` reads at `I`, `I + 1`, … (R103, R185). -/
def State.readsCheck (s : State) (n : Nat) : Option Fault := firstFault readCheck (s.addr 0) n

/-- The check phase of `n` writes at `I`, `I + 1`, … (R183, R184). -/
def State.writesCheck (s : State) (n : Nat) : Option Fault := firstFault writeCheck (s.addr 0) n

/-- A register's value as a key number: 16 or more names no key (R200). -/
def keyCheck (k : Byte) : Option Fault :=
  if 16 ≤ k.toNat then some (.keyIndexOutOfRange k) else none

/-- The key a value below 16 names (R76, R200). -/
def keyOf (k : Byte) : Nibble := k.setWidth 4

/-- `mem[I + k] <- V[k]` for `k` in 0 .. x-1 (R184). -/
def State.storeRange (s : State) (x : Nat) : State :=
  (List.range x).foldl (fun t k => t.setByte (s.addr k) (s.reg (nthReg k))) s

/-- `V[k] <- mem[I + k]` for `k` in 0 .. x-1 (R185). -/
def State.loadRange (s : State) (x : Nat) : State :=
  (List.range x).foldl (fun t k => t.setReg (nthReg k) (s.byteAt (s.addr k))) s

end Sys2Proof.Machine
end

