-- ==== Sys2Proof/Machine/Arith.lean ====
section
/-!
DEFINITION. The register, arithmetic and random instructions (43_arithmetic.md). Each ends with `pc + 2`; none
faults or touches memory.
-/
namespace Sys2Proof.Machine

/-- LD Vx, kk (R152). -/
def execLdImm (x : Nibble) (kk : Byte) (s : State) : Result :=
  .next ((s.setReg x kk).advance 2#16)

/-- ADD Vx, kk (R153): modulo 256, no flag. -/
def execAddImm (x : Nibble) (kk : Byte) (s : State) : Result :=
  .next ((s.setReg x (s.reg x + kk)).advance 2#16)

/-- LD Vx, Vy (R154). -/
def execLdReg (x y : Nibble) (s : State) : Result :=
  .next ((s.setReg x (s.reg y)).advance 2#16)

/-- OR Vx, Vy (R155): VF is not reset. -/
def execOrReg (x y : Nibble) (s : State) : Result :=
  .next ((s.setReg x (s.reg x ||| s.reg y)).advance 2#16)

/-- AND Vx, Vy (R156): VF is not reset. -/
def execAndReg (x y : Nibble) (s : State) : Result :=
  .next ((s.setReg x (s.reg x &&& s.reg y)).advance 2#16)

/-- XOR Vx, Vy (R157): VF is not reset. -/
def execXorReg (x y : Nibble) (s : State) : Result :=
  .next ((s.setReg x (s.reg x ^^^ s.reg y)).advance 2#16)

/-- ADD Vx, Vy (R158): VF = carry, written last. -/
def execAddReg (x y : Nibble) (s : State) : Result :=
  .next ((s.setResultFlag x (s.reg x + s.reg y) (carry (s.reg x) (s.reg y))).advance 2#16)

/-- SUB Vx, Vy (R159): `V[x] - V[y]`, VF = no borrow, written last. -/
def execSubReg (x y : Nibble) (s : State) : Result :=
  .next ((s.setResultFlag x (s.reg x - s.reg y) (notBorrow (s.reg x) (s.reg y))).advance 2#16)

/-- SHR Vx, Vy (R160): `V[y]` is shifted, not `V[x]`; VF = the bit shifted out, written last. -/
def execShrReg (x y : Nibble) (s : State) : Result :=
  .next ((s.setResultFlag x (s.reg y >>> 1) (lowBit (s.reg y))).advance 2#16)

/-- SUBN Vx, Vy (R161): `V[y] - V[x]`, VF = no borrow, written last. -/
def execSubnReg (x y : Nibble) (s : State) : Result :=
  .next ((s.setResultFlag x (s.reg y - s.reg x) (notBorrow (s.reg y) (s.reg x))).advance 2#16)

/-- SHL Vx, Vy (R162): `V[y]` is shifted, not `V[x]`; VF = the bit shifted out, written last. -/
def execShlReg (x y : Nibble) (s : State) : Result :=
  .next ((s.setResultFlag x (s.reg y <<< 1) (highBit (s.reg y))).advance 2#16)

/-- RND Vx, kk (R163, R164): exactly one draw, also for `kk = 0`; the byte is a free value (log entry 4). -/
def execRnd (x : Nibble) (kk : Byte) (s : State) : Result :=
  .next ((s.drawn.setReg x (s.randomByte &&& kk)).advance 2#16)

end Sys2Proof.Machine
end

