-- ==== Sys2Proof/Machine/Control.lean ====
section
/-!
DEFINITION. The control-flow instructions (42_control_flow.md): RET, JP, CALL, the register and immediate skips,
JP V0. No target is checked here; the fetch of the next STEP checks it (R129).
-/
namespace Sys2Proof.Machine

/-- RET (R121): StackUnderflow at `sp = 0`; else `pc <- stack[sp] + 2`, `sp <- sp - 1`. -/
def execRet (s : State) : Result :=
  guarded (if s.sp = 0 then some (.stackUnderflow s.pc) else none) s
    ((s.setPc (s.top + 2#16)).pop)

/-- JP nnn (R122). -/
def execJp (nnn : Addr12) (s : State) : Result :=
  .next (s.setPc (zext16 nnn))

/-- CALL nnn (R123): StackOverflow at `sp = 15`; else the CALL's own address is pushed. -/
def execCall (nnn : Addr12) (s : State) : Result :=
  guarded (if s.sp.val = Config.spLast then some (.stackOverflow s.pc) else none) s
    ((s.push s.pc).setPc (zext16 nnn))

/-- SE Vx, kk (R124). -/
def execSeImm (x : Nibble) (kk : Byte) (s : State) : Result :=
  .next (s.skipIf (decide (s.reg x = kk)))

/-- SNE Vx, kk (R125). -/
def execSneImm (x : Nibble) (kk : Byte) (s : State) : Result :=
  .next (s.skipIf (decide (s.reg x ≠ kk)))

/-- SE Vx, Vy (R126): register values, not indices. -/
def execSeReg (x y : Nibble) (s : State) : Result :=
  .next (s.skipIf (decide (s.reg x = s.reg y)))

/-- SNE Vx, Vy (R127). -/
def execSneReg (x y : Nibble) (s : State) : Result :=
  .next (s.skipIf (decide (s.reg x ≠ s.reg y)))

/-- JP V0, nnn (R128): `nnn + V[0] + 2`, the extra 2 being part of this design (92_eei_decisions.md D27). -/
def execJpV0 (nnn : Addr12) (s : State) : Result :=
  .next (s.setPc (zext16 nnn + wide (s.reg 0#4) + 2#16))

end Sys2Proof.Machine
end

