-- ==== Sys2Proof/Machine/Display.lean ====
section
/-!
DEFINITION. The display instructions (41_display.md): CLS and DRW.
-/
namespace Sys2Proof.Machine

/-- CLS (R102): every cell 0, `redraw` set even if nothing changed, `pc + 2`. -/
def execCls (s : State) : Result :=
  .next (((s.setFb fbClear).setRedraw true).advance 2#16)

/-- The canvas DRW leaves (R103): the sprite bytes are at `I ..`, the coordinates are `V[x] mod 64` and
`V[y] mod 32`, read before VF is written. -/
def State.sprite (s : State) (x y n : Nibble) : Canvas :=
  drawRows { fb := s.fb, collision := false } (fun r => s.byteAt (s.addr r))
    ((s.reg x).toNat % 64) ((s.reg y).toNat % 32) n.toNat

/-- DRW Vx, Vy, n (R103): the reads are checked first; then the sprite is drawn, VF takes the collision flag and
`redraw` is set, also for `n = 0`; `pc + 2`. -/
def execDrw (x y n : Nibble) (s : State) : Result :=
  guarded (s.readsCheck n.toNat) s
    ((((s.setFb (s.sprite x y n).fb).setReg vf (boolToByte (s.sprite x y n).collision)).setRedraw true).advance 2#16)

end Sys2Proof.Machine
end

