-- ==== Sys2Proof/Machine/Index.lean ====
section
/-!
DEFINITION. The index register and the loads and stores through it (44_index_memory.md). Every address is checked
before anything is written; no access changes `I`.
-/
namespace Sys2Proof.Machine

/-- LD I, nnn (R180). -/
def execLdI (nnn : Addr12) (s : State) : Result :=
  .next ((s.setI (zext16 nnn)).advance 2#16)

/-- ADD I, Vx (R181): modulo 2^16, no flag. -/
def execAddI (x : Nibble) (s : State) : Result :=
  .next ((s.setI (s.I + wide (s.reg x))).advance 2#16)

/-- LD F, Vx (R182): `V[x] * 5`, with no mask on `V[x]`. -/
def execLdF (x : Nibble) (s : State) : Result :=
  .next ((s.setI (wide (s.reg x) * 5#16)).advance 2#16)

/-- LD B, Vx (R183): hundreds, tens, units at `I`, `I + 1`, `I + 2`. -/
def execLdB (x : Nibble) (s : State) : Result :=
  guarded (s.writesCheck 3) s
    ((((s.setByte (s.addr 0) (s.reg x / 100#8)).setByte (s.addr 1) (s.reg x / 10#8 % 10#8)).setByte
      (s.addr 2) (s.reg x % 10#8)).advance 2#16)

/-- LD [I], Vx (R184): `x` registers, V[0] .. V[x-1]; `x = 0` stores nothing and cannot fault. -/
def execStoreRegs (x : Nibble) (s : State) : Result :=
  guarded (s.writesCheck x.toNat) s ((s.storeRange x.toNat).advance 2#16)

/-- LD Vx, [I] (R185): `x` registers, V[0] .. V[x-1]; `x = 0` loads nothing and cannot fault. -/
def execLoadRegs (x : Nibble) (s : State) : Result :=
  guarded (s.readsCheck x.toNat) s ((s.loadRange x.toNat).advance 2#16)

end Sys2Proof.Machine
end

