-- ==== Sys2Proof/Machine/Keypad.lean ====
section
/-!
DEFINITION. The keypad instructions (45_keypad.md).
-/
namespace Sys2Proof.Machine

/-- SKP Vx (R200, R201): the latch is read and not cleared. -/
def execSkp (x : Nibble) (s : State) : Result :=
  guarded (keyCheck (s.reg x)) s (s.skipIf (s.key (keyOf (s.reg x))))

/-- SKNP Vx (R200, R202): not pressed skips; pressed clears the latch and does not skip. -/
def execSknp (x : Nibble) (s : State) : Result :=
  guarded (keyCheck (s.reg x)) s
    (if s.key (keyOf (s.reg x)) then (s.setKey (keyOf (s.reg x)) false).advance 2#16 else s.advance 4#16)

/-- LD Vx, K (R203): the first pressed key's boolean as a byte, which is 1 and not the key number; with no key
pressed nothing changes and the next STEP runs the same word again. -/
def execLdVxK (x : Nibble) (s : State) : Result :=
  match s.firstKey with
  | some k => .next ((s.setReg x (boolToByte (s.key k))).advance 2#16)
  | none => .next s

end Sys2Proof.Machine
end

