-- ==== Sys2Proof/Machine/Timers.lean ====
section
/-!
DEFINITION. The timer instructions (46_timers.md). The decrement is the TICK event (60_exceptions.md R236), in
Machine/Events.lean.
-/
namespace Sys2Proof.Machine

/-- LD Vx, DT (R210). -/
def execLdVxDT (x : Nibble) (s : State) : Result :=
  .next ((s.setReg x s.DT).advance 2#16)

/-- LD DT, Vx (R211). -/
def execLdDTVx (x : Nibble) (s : State) : Result :=
  .next ((s.setDT (s.reg x)).advance 2#16)

/-- LD ST, Vx (R212). -/
def execLdSTVx (x : Nibble) (s : State) : Result :=
  .next ((s.setST (s.reg x)).advance 2#16)

end Sys2Proof.Machine
end

