-- ==== Sys2Proof/Machine/Step.lean ====
section
/-!
DEFINITION. The STEP event (30_encoding.md R72) with the fault priority of 60_exceptions.md R226.
-/
namespace Sys2Proof.Machine

/-- STEP (R72): a halted core has no step; a `pc` outside the fetch range faults (R73); a word that is no
instruction faults (R82); otherwise the decoded instruction is executed. -/
def step (s : State) : Host.Outcome State Fault Refusal :=
  match s.fault with
  | some f => haltedBy f
  | none =>
    if fetchable s.pc then
      match decode s.fetchWord with
      | .ok i => exec i s
      | .error _ => .next (s.raise (.illegalInstruction s.fetchWord))
    else .next (s.raise (.pcOutOfBounds s.pc))

/-- The state with the word of table bits `w` (an instruction of `nbits` bits) stored at `pc`, in address order: the
very next step of a core that is not halted and whose `pc` is in the fetch range fetches it (R71). A store from
outside, as LOAD_ROM makes it (R264). DESIGN CHOICE, safe; log entry 7. -/
def State.withFetchWord (s : State) (nbits w : Nat) : State :=
  s.setBytes s.pc.toNat (bytesOfWord (BitVec.ofNat 16 (w % 2 ^ nbits)))

end Sys2Proof.Machine
end

