-- ==== Sys2Proof/Machine/Core.lean ====
section
/-!
DEFINITION. The machine behind the host's interface (Host/Core.lean): its step is the STEP event alone, the other
events of R240 are in Sys2Proof/Machine/Events.lean (DESIGN CHOICE, unsafe where a run of it is read as every run; log
entry 10).
-/
def Sys2Proof.core : Host.Core :=
  { State := Sys2Proof.Machine.State
    Fault := Sys2Proof.Machine.Fault
    Refusal := Sys2Proof.Machine.Refusal
    step := Sys2Proof.Machine.step
    reset := Sys2Proof.Machine.State.reset }
end

