-- ==== Sys2Proof/Machine/Events.lean ====
section
/-!
DEFINITION. The host's events and their order (60_exceptions.md R236, R240 to R247; 70_reset_and_hazards.md R260,
R264, R265). Each is atomic; the host picks the order, so a claim about runs is a claim about every list of events.
-/
namespace Sys2Proof.Machine

/-- The events of R240. -/
inductive Event where
  /-- RESET (R260). -/
  | reset
  /-- LOAD_ROM(bytes) (R264). -/
  | loadRom (bytes : List Byte)
  /-- STEP (R72). -/
  | step
  /-- TICK (R236). -/
  | tick
  /-- KEY_SET(k, b) (R244), k in 0..15. -/
  | keySet (k : Nibble) (b : Bool)
  /-- REDRAW_ACK (R243). -/
  | redrawAck
  /-- A read of the framebuffer, `redraw`, `ST`, `fault` or any other state (R242, R246). -/
  | read
  deriving DecidableEq, Repr

/-- One timer's decrement, floor at 0 (R236). -/
def countDown (v : Byte) : Byte := if v = 0#8 then 0#8 else v - 1#8

/-- TICK (R236): both timers; a halted core has no step. -/
def tick (s : State) : Result :=
  match s.fault with
  | some f => haltedBy f
  | none => .next ((s.setDT (countDown s.DT)).setST (countDown s.ST))

/-- LOAD_ROM (R264): nothing is copied if the program is too long; the copy starts at 0x200. -/
def loadRom (bytes : List Byte) (s : State) : Result :=
  guarded (if Config.maxRom < bytes.length then some (.romTooLarge bytes.length) else none) s
    (s.setBytes Config.progStart bytes)

/-- One event (R240). KEY_SET, REDRAW_ACK and LOAD_ROM have their effect whenever they come, on a halted core too:
DESIGN CHOICE, unsafe; log entries 6 and 11. -/
def deliver (e : Event) (s : State) : Result :=
  match e with
  | .reset => .next s.restart
  | .loadRom bytes => loadRom bytes s
  | .step => step s
  | .tick => tick s
  | .keySet k b => .next (s.setKey k b)
  | .redrawAck => .next (s.setRedraw false)
  | .read => .next s

/-- Events one after another, in the order the host gives them, until one has no step (R240). -/
def deliverAll : List Event → State → Result
  | [], s => .next s
  | e :: es, s =>
    match deliver e s with
    | .next t => deliverAll es t
    | .fault f => .fault f
    | .refused r => .refused r

/-- How far the host's boot order (R265) has come. -/
inductive BootPhase where
  /-- Nothing may come before the first RESET (R247). -/
  | off
  /-- After a RESET, a repeated one too (log entry 16), and the events that keep it so (log entry 17): LOAD_ROM may
  come. -/
  | fresh
  /-- A program has been loaded; LOAD_ROM may not come again before a RESET (R264; log entry 16). -/
  | loaded
  /-- A STEP has been made; LOAD_ROM may not come before a RESET (R264; log entry 16). -/
  | running
  deriving DecidableEq, Repr

/-- The host keeps the boot order (R247, R264, R265): RESET before anything else, then LOAD_ROM at most once, and
not after the first STEP. What an event outside the order does is not the spec's (93_implementation_defined.md U22).
Two points the spec leaves open are settled here. "At most once" and "the first STEP" are counted from the latest
RESET, so a repeated RESET lets LOAD_ROM come again (DESIGN CHOICE, safe: more runs are admitted; log entry 16). TICK,
KEY_SET, REDRAW_ACK and reads may come between RESET and LOAD_ROM, only a STEP may not (DESIGN CHOICE, safe: more runs
are admitted; log entry 17). -/
def bootOrderKept : BootPhase → List Event → Bool
  | _, [] => true
  | _, .reset :: es => bootOrderKept .fresh es
  | .fresh, .loadRom _ :: es => bootOrderKept .loaded es
  | _, .loadRom _ :: _ => false
  | .off, _ :: _ => false
  | _, .step :: es => bootOrderKept .running es
  | p, _ :: es => bootOrderKept p es

end Sys2Proof.Machine
end

