-- ==== Sys2Proof/Safety.lean ====
section
/-!
DEFINITION. The terms claims are made in: what counts as running and parked (60_exceptions.md R224, R251), the
invariants of 10_state.md R39, and the frame of a change (which parts of the state it leaves alone).
-/
namespace Sys2Proof.Machine

/-- The core is not halted (R35). -/
def State.Running (s : State) : Prop := s.fault = none

/-- `parked(s)` of R251: not halted, `pc` in the fetch range, and a self-jump there (`0x1000 | pc`). -/
def State.Parked (s : State) : Prop :=
  s.fault = none ∧ 0x200 ≤ s.pc.toNat ∧ s.pc.toNat ≤ 0xFFE ∧ s.fetchWord = 0x1000#16 ||| s.pc

/-- The parts of the state a frame speaks of; `pc` is in none of them, every statement says what becomes of it. -/
inductive Part where
  /-- V0-VF. -/
  | regs
  /-- `I`. -/
  | index
  /-- `stack` and `sp`. -/
  | callStack
  /-- `DT`. -/
  | delay
  /-- `ST`. -/
  | sound
  /-- Every byte of memory. -/
  | memory
  /-- The 2048 cells. -/
  | display
  /-- `redraw`. -/
  | redrawFlag
  /-- The 16 key latches. -/
  | keys
  /-- The fault record. -/
  | faultRecord
  /-- The model's draw counter. -/
  | drawCount
  /-- The model's glyph-table parameter. -/
  | glyphTable
  deriving DecidableEq, Repr

/-- The part reads the same in `t` as in `s`, through the model's own reads. -/
def Part.Same (p : Part) (s t : State) : Prop :=
  match p with
  | .regs => ∀ r : Nibble, t.reg r = s.reg r
  | .index => t.I = s.I
  | .callStack => t.stack = s.stack ∧ t.sp = s.sp
  | .delay => t.DT = s.DT
  | .sound => t.ST = s.ST
  | .memory => ∀ a : Nat, t.byteAt a = s.byteAt a
  | .display => ∀ c : Nat, t.cell c = s.cell c
  | .redrawFlag => t.redraw = s.redraw
  | .keys => ∀ k : Nibble, t.key k = s.key k
  | .faultRecord => t.fault = s.fault
  | .drawCount => t.draws = s.draws
  | .glyphTable => t.glyphs = s.glyphs

/-- The frame: every part but those listed reads the same. -/
def KeepsAllBut (written : List Part) (s t : State) : Prop :=
  ∀ p : Part, p ∉ written → p.Same s t

/-- The parts an instruction may write (R23, R25, R27, R29, R30, R32, R33, R34, R56, and the fault record of one that
can fault, R221). -/
def partsWritten : Instr → List Part
  | .cls => [.display, .redrawFlag]
  | .ret => [.callStack, .faultRecord]
  | .jp _ => []
  | .call _ => [.callStack, .faultRecord]
  | .seImm _ _ => []
  | .sneImm _ _ => []
  | .seReg _ _ => []
  | .ldImm _ _ => [.regs]
  | .addImm _ _ => [.regs]
  | .ldReg _ _ => [.regs]
  | .orReg _ _ => [.regs]
  | .andReg _ _ => [.regs]
  | .xorReg _ _ => [.regs]
  | .addReg _ _ => [.regs]
  | .subReg _ _ => [.regs]
  | .shrReg _ _ => [.regs]
  | .subnReg _ _ => [.regs]
  | .shlReg _ _ => [.regs]
  | .sneReg _ _ => []
  | .ldI _ => [.index]
  | .jpV0 _ => []
  | .rnd _ _ => [.regs, .drawCount]
  | .drw _ _ _ => [.regs, .display, .redrawFlag, .faultRecord]
  | .skp _ => [.faultRecord]
  | .sknp _ => [.keys, .faultRecord]
  | .ldVxDT _ => [.regs]
  | .ldVxK _ => [.regs]
  | .ldDTVx _ => [.delay]
  | .ldSTVx _ => [.sound]
  | .addI _ => [.index]
  | .ldF _ => [.index]
  | .ldB _ => [.memory, .faultRecord]
  | .storeRegs _ => [.memory, .faultRecord]
  | .loadRegs _ => [.regs, .faultRecord]

/-- R87's table: the new `pc` of an instruction that does not fault, as an exact integer. -/
def pcAfter (s : State) : Instr → Nat
  | .jp nnn | .call nnn => nnn.toNat
  | .ret => s.stack[s.sp].toNat + 2
  | .jpV0 nnn => nnn.toNat + (s.reg 0#4).toNat + 2
  | .seImm x kk => if s.reg x = kk then s.pc.toNat + 4 else s.pc.toNat + 2
  | .sneImm x kk => if s.reg x ≠ kk then s.pc.toNat + 4 else s.pc.toNat + 2
  | .seReg x y => if s.reg x = s.reg y then s.pc.toNat + 4 else s.pc.toNat + 2
  | .sneReg x y => if s.reg x ≠ s.reg y then s.pc.toNat + 4 else s.pc.toNat + 2
  | .skp x => if s.key (BitVec.ofNat 4 (s.reg x).toNat) = true then s.pc.toNat + 4 else s.pc.toNat + 2
  | .sknp x => if s.key (BitVec.ofNat 4 (s.reg x).toNat) = false then s.pc.toNat + 4 else s.pc.toNat + 2
  | .ldVxK _ => if ∃ k : Nibble, s.key k = true then s.pc.toNat + 2 else s.pc.toNat
  | .cls | .ldImm _ _ | .addImm _ _ | .ldReg _ _ | .orReg _ _ | .andReg _ _ | .xorReg _ _ => s.pc.toNat + 2
  | .addReg _ _ | .subReg _ _ | .shrReg _ _ | .subnReg _ _ | .shlReg _ _ | .rnd _ _ => s.pc.toNat + 2
  | .ldI _ | .addI _ | .ldF _ | .drw _ _ _ | .ldVxDT _ | .ldDTVx _ | .ldSTVx _ => s.pc.toNat + 2
  | .ldB _ | .storeRegs _ | .loadRegs _ => s.pc.toNat + 2

/-- Cell `c` lies under a set bit of the sprite that DRW Vx, Vy, n draws in state `s` (R100, R101, R103): bit
`7 - col` of the byte at `I + row`, at column `(x0 + col) mod 64` of row `(y0 + row) mod 32`. -/
def State.SpriteCovers (s : State) (x y n : Nibble) (c : Nat) : Prop :=
  ∃ row < n.toNat, ∃ col < 8,
    (((s.reg y).toNat % 32 + row) % 32) * 64 + ((s.reg x).toNat % 64 + col) % 64 = c ∧
      (s.byteAt (s.addr row)).getLsbD (7 - col) = true

/-- The state R37 lists, read item by item; the glyph table is whatever `glyphs` holds. -/
structure State.AtReset (s : State) : Prop where
  /-- `mem[0x000..0x04F]` is the glyph table. -/
  glyphBytes : ∀ a : Fin 80, s.byteAt a.val = s.glyphs[a]
  /-- `mem[0x050..0xFFF]` is 0. -/
  otherBytes : ∀ a : Nat, 0x050 ≤ a → s.byteAt a = 0#8
  /-- `V[0..15]`. -/
  regs : ∀ r : Nibble, s.reg r = 0#8
  /-- `I`. -/
  index : s.I = 0#16
  /-- `pc` (R263). -/
  entry : s.pc = 0x200#16
  /-- `stack[0..15]`. -/
  stack : ∀ j : Fin 16, s.stack[j] = 0#16
  /-- `sp`. -/
  depth : s.sp = 0
  /-- `DT` and `ST`. -/
  timers : s.DT = 0#8 ∧ s.ST = 0#8
  /-- `fb[0..2047]`. -/
  cells : ∀ c : Nat, s.cell c = false
  /-- `keypad[0..15]`. -/
  keys : ∀ k : Nibble, s.key k = false
  /-- `redraw`. -/
  flag : s.redraw = false
  /-- `fault`. -/
  record : s.fault = none

/-- What a fault record says of the state it was taken in (R221, R224): `pc` still names the faulting instruction,
and the condition the fault reports holds. -/
def Fault.Fits (f : Fault) (s : State) : Prop :=
  match f with
  | .romTooLarge len => 3584 < len
  | .illegalInstruction w =>
    fetchable s.pc = true ∧ w = s.fetchWord ∧ decode w = .error (.illegalInstruction w)
  | .pcOutOfBounds pc => pc = s.pc ∧ fetchable s.pc = false
  | .stackOverflow pc => pc = s.pc ∧ s.sp = 15
  | .stackUnderflow pc => pc = s.pc ∧ s.sp = 0
  | .memOutOfBounds addr => 0x1000 ≤ addr
  | .reservedWrite addr => addr < 0x200
  | .keyIndexOutOfRange k => 16 ≤ k.toNat

/-- The invariants of R39, with the two facts behind them (R27, R36) and the canonical form of the model's memory.
R39's items 1, 3 and 5 hold by the types of `State`. -/
structure State.Inv (s : State) : Prop where
  /-- Memory is in its canonical form. -/
  memWf : Memory.wf s.glyphs s.mem
  /-- R39 item 2 and R53: nothing below 0x200 has been written, so the glyph table reads as it was loaded. -/
  reserved : ∀ c ∈ s.mem, 0x200 ≤ c.1
  /-- R36, R87: the largest reachable `pc` is 0x1100. -/
  pcBound : s.pc.toNat ≤ 0x1100
  /-- R121: a saved entry is the address of a CALL that was fetched (R39 item 4). -/
  stackBound : ∀ j : Fin 16, s.stack[j].toNat ≤ 0xFFE
  /-- R27: `stack[0]` is never written. -/
  stackZero : s.stack[(0 : Fin 16)] = 0#16
  /-- R224, R225: the fault record fits the state it halted. -/
  recordFits : ∀ f, s.fault = some f → f.Fits s

end Sys2Proof.Machine
end

