-- ==== Sys2Proof/Certificates/Slice0/Obligations.lean ====
section
/-!
DEFINITION. The statements for the provers, one per numbered rule or group of rules of spec/. Each docstring names the
rule; `Part`, `KeepsAllBut`, `partsWritten`, `pcAfter`, `SpriteCovers`, `AtReset`, `Fits`, `Inv` and `Parked` are those
of Sys2Proof/Safety.lean. A frame never lists `pc`: each statement says what becomes of it.
-/
open Sys2Proof Sys2Proof.Machine

/-- Decoding the bytes of any well-formed instruction gives it back, with the rest of the bytes. R70, R74, R78, R80:
no operand bit is lost between the encoder and the decoder. -/
def Obligations.DecodeOfEncodeIsTheInstruction : Prop :=
  ∀ (i : Instr) (rest : List Byte), WellFormed i = true → decodeBytes (encodeBytes i ++ rest) = .ok (i, rest)

/-- A word decodes to an instruction exactly when its row selects it and its operands are the word's bits, ignored
ones written 0 (log entry 2); no two rows overlap. R80: "a word `w` selects the row when `w & mask = match`" and
"No two rows match the same word"; R78 and R79 name the ignored bits; that `encode` writes 0 there is the
model's choice (log entry 2, DESIGN CHOICE). -/
def Obligations.DecodedWordBelongsToItsRow : Prop :=
  (∀ (w : Word) (i : Instr), decode w = .ok i ↔
    (w &&& opcodeMask i = opcodeMatch i ∧ encode i = w &&& usedBits i)) ∧
  (∀ (w : Word) (i j : Instr), w &&& opcodeMask i = opcodeMatch i → w &&& opcodeMask j = opcodeMatch j →
    opcodeMask i = opcodeMask j ∧ opcodeMatch i = opcodeMatch j)

/-- The decoder rejects exactly the words that R81's table lists, and with the word itself. R81: "The illegal
encodings are exactly the words no row of rule R80 matches", and its table. -/
def Obligations.IllegalWordsAreThoseListed : Prop :=
  ∀ w : Word, decode w = .error (.illegalInstruction w) ↔
    (w.toNat / 4096 = 0x0 ∧ w.toNat % 256 ≠ 0xE0 ∧ w.toNat % 256 ≠ 0xEE) ∨
    (w.toNat / 4096 = 0x8 ∧ (0x8 ≤ w.toNat % 16 ∧ w.toNat % 16 ≤ 0xD ∨ w.toNat % 16 = 0xF)) ∨
    (w.toNat / 4096 = 0xE ∧ w.toNat % 256 ≠ 0x9E ∧ w.toNat % 256 ≠ 0xA1) ∨
    (w.toNat / 4096 = 0xF ∧ w.toNat % 256 ∉ [0x07, 0x0A, 0x15, 0x18, 0x1E, 0x29, 0x33, 0x55, 0x65])

/-- Bits 3-0 of families 0x5 and 0x9 and bits 11-8 of CLS and RET are ignored. R79 (the spec infers it from R77),
R78. -/
def Obligations.IgnoredBitsDoNotSelect : Prop :=
  (∀ x y z : Nibble, decode (0x5#4 ++ x ++ y ++ z) = .ok (.seReg x y) ∧
    decode (0x9#4 ++ x ++ y ++ z) = .ok (.sneReg x y)) ∧
  (∀ z : Nibble, decode (0x0#4 ++ z ++ 0xE0#8) = .ok .cls ∧ decode (0x0#4 ++ z ++ 0xEE#8) = .ok .ret) ∧
  decode 0x5121#16 = .ok (.seReg 0x1#4 0x2#4) ∧ decode 0x01E0#16 = .ok .cls ∧ decode 0x0FEE#16 = .ok .ret

/-- Nine words written out from the opcode map, one or two a family, decode to their instructions. R80, R54: a
sanity statement on words of spec/95_test_vectors.md. -/
def Obligations.SampleWordsDecode : Prop :=
  decodeBytes [0x00#8, 0xE0#8] = .ok (.cls, []) ∧
  decodeBytes [0x22#8, 0x10#8] = .ok (.call 0x210#12, []) ∧
  decodeBytes [0x6A#8, 0x3E#8] = .ok (.ldImm 0xA#4 0x3E#8, []) ∧
  decodeBytes [0x80#8, 0x1E#8] = .ok (.shlReg 0x0#4 0x1#4, []) ∧
  decodeBytes [0xA3#8, 0x00#8] = .ok (.ldI 0x300#12, []) ∧
  decodeBytes [0xDA#8, 0xB5#8] = .ok (.drw 0xA#4 0xB#4 0x5#4, []) ∧
  decodeBytes [0xE6#8, 0xA1#8] = .ok (.sknp 0x6#4, []) ∧
  decodeBytes [0xF3#8, 0x55#8] = .ok (.storeRegs 0x3#4, []) ∧
  decodeBytes [0xF1#8, 0x07#8] = .ok (.ldVxDT 0x1#4, [])

/-- A STEP of a running core in the fetch range runs the instruction its two bytes decode to. R71, R72. -/
def Obligations.StepRunsTheDecodedInstruction : Prop :=
  ∀ (s : State) (i : Instr), s.fault = none → 0x200 ≤ s.pc.toNat → s.pc.toNat ≤ 0xFFE →
    decode (BitVec.ofNat 16 ((s.byteAt s.pc.toNat).toNat * 256 + (s.byteAt (s.pc.toNat + 1)).toNat)) = .ok i →
    step s = exec i s

/-- While the fault record is set, STEP and TICK have no next state. R224: "the core is now halted: no STEP and no
TICK has a step until RESET". -/
def Obligations.HaltedCoreTakesNoStepOrTick : Prop :=
  ∀ (s : State) (f : Fault), s.fault = some f → (∀ t, step s ≠ .next t) ∧ (∀ t, tick s ≠ .next t)

/-- A STEP with pc outside 0x200..0xFFE takes PcOutOfBounds(pc); inside it never does; a jump never does. R73. -/
def Obligations.FetchOutsideItsRangeFaults : Prop :=
  (∀ s : State, s.fault = none → (s.pc.toNat < 0x200 ∨ 0xFFE < s.pc.toNat) →
    step s = .next { s with fault := some (.pcOutOfBounds s.pc) }) ∧
  (∀ s t : State, s.fault = none → 0x200 ≤ s.pc.toNat → s.pc.toNat ≤ 0xFFE → step s = .next t →
    ∀ p, t.fault ≠ some (.pcOutOfBounds p)) ∧
  (∀ (i : Instr) (s t : State), s.fault = none → exec i s = .next t → ∀ p, t.fault ≠ some (.pcOutOfBounds p))

/-- A STEP on a word that is no instruction takes IllegalInstruction with that word and changes nothing else. R82. -/
def Obligations.IllegalWordFaultsAtDecode : Prop :=
  ∀ (s : State) (e : DecodeError), s.fault = none → 0x200 ≤ s.pc.toNat → s.pc.toNat ≤ 0xFFE →
    decode (BitVec.ofNat 16 ((s.byteAt s.pc.toNat).toNat * 256 + (s.byteAt (s.pc.toNat + 1)).toNat)) = .error e →
    step s = .next { s with fault := some (.illegalInstruction
      (BitVec.ofNat 16 ((s.byteAt s.pc.toNat).toNat * 256 + (s.byteAt (s.pc.toNat + 1)).toNat))) }

/-- No instruction is refused: exec always answers a next state, and so does a STEP of a running core. R12: "The
machine never refuses an instruction word." -/
def Obligations.EveryInstructionAnswersANextState : Prop :=
  (∀ (i : Instr) (s : State), ∃ t, exec i s = .next t) ∧ (∀ s : State, s.fault = none → ∃ t, step s = .next t)

/-- An event that faults leaves the state as it was before the event, but for the fault record. R225. -/
def Obligations.FaultsArePrecise : Prop :=
  ∀ (e : Event) (s t : State) (f : Fault), s.fault = none → deliver e s = .next t → t.fault = some f →
    t = { s with fault := some f }

/-- A halted core is halted until RESET, whatever the host sends. R227: "Only RESET leaves the halted state"; R35:
"Only RESET clears it". -/
def Obligations.OnlyResetLeavesTheHaltedState : Prop :=
  (∀ (e : Event) (s t : State) (f : Fault), s.fault = some f → deliver e s = .next t → t.fault = none → e = .reset) ∧
  (∀ s : State, ∃ t, deliver .reset s = .next t ∧ t.fault = none)

/-- RESET, from any state, and State.reset hold every value of R37's table. R37, R260. That `glyphs` and `draws`
survive is the model's choice (log entry 6). -/
def Obligations.ResetGivesTheListedState : Prop :=
  State.reset.AtReset ∧
  ∀ s : State, ∃ t, deliver .reset s = .next t ∧ t.AtReset ∧ t.glyphs = s.glyphs ∧ t.draws = s.draws

/-- The invariant holds at reset. R37, R39; the canonical memory form is the model's own (log entry 9). -/
def Obligations.ResetMeetsTheInvariant : Prop :=
  State.reset.Inv

/-- Every STEP from a state that meets the invariant gives one that meets it. R39 and the rules behind it; the
canonical memory form is the model's own (log entry 9). -/
def Obligations.StepKeepsTheInvariant : Prop :=
  ∀ s t : State, s.Inv → step s = .next t → t.Inv

/-- Every state reachable by any legal order of host events meets the invariant, the model's own memory form (log
entry 9) among it. R39: "Every state reachable from reset by the rules of this spec satisfies these invariants";
R240, R265 for the schedules. The canonical memory form in `Inv` is the model's own (log entry 9, DESIGN
CHOICE). That each RESET admits one LOAD_ROM and that TICK, KEY_SET, REDRAW_ACK and reads may precede it are the
model's choices (log entries 16 and 17, DESIGN CHOICE). -/
def Obligations.LegalSchedulesReachOnlyInvariantStates : Prop :=
  ∀ (s t : State) (es : List Event), bootOrderKept .off (.reset :: es) = true →
    deliverAll (.reset :: es) s = .next t → t.Inv

/-- RESET loads the glyph table at 0x000-0x04F and no other event writes a byte below 0x200. R262, R53. The table is
whatever the model's field `glyphs` holds (log entry 3). -/
def Obligations.ReservedRegionIsNeverOverwritten : Prop :=
  (∀ s : State, ∃ t, deliver .reset s = .next t ∧ ∀ a : Fin 80, t.byteAt a.val = t.glyphs[a]) ∧
  (∀ (e : Event) (s t : State), e ≠ .reset → deliver e s = .next t → ∀ a < 0x200, t.byteAt a = s.byteAt a)

/-- Each of the 34 instructions leaves alone every part of the state the spec does not let it write. R23, R25, R27,
R29, R30, R32, R33, R34, R56: who may write what. -/
def Obligations.InstructionsWriteOnlyTheirParts : Prop :=
  ∀ (i : Instr) (s t : State), exec i s = .next t → KeepsAllBut (partsWritten i) s t

/-- Every instruction leaves pc where R87's table says, as an exact integer at most 0x1100; a faulting one leaves
it. R87. -/
def Obligations.ProgramCounterFollowsTheTable : Prop :=
  ∀ (i : Instr) (s t : State), s.Inv → s.fault = none → 0x200 ≤ s.pc.toNat → s.pc.toNat ≤ 0xFFE →
    exec i s = .next t →
    (t.fault = none → t.pc.toNat = pcAfter s i ∧ pcAfter s i ≤ 0x1100) ∧ (t.fault ≠ none → t.pc = s.pc)

/-- CALL then RET resumes after the CALL with the stack depth as before. R121, R123 and the testable property quoted
at R123. -/
def Obligations.CallThenReturnComesBack : Prop :=
  ∀ (s : State) (nnn : Addr12), s.sp.val < 15 → ∃ t, exec (.call nnn) s = .next t ∧
    ∀ u : State, u.stack = t.stack → u.sp = t.sp →
      ∃ v, exec .ret u = .next v ∧ v.pc = s.pc + 2#16 ∧ v.sp = s.sp

/-- LD [I],Vx then LD Vx,[I] restores V0 to V(x-1) and only those, whatever happened to the registers between. R184,
R185: the round trip with the exclusive range. -/
def Obligations.StoreThenLoadRestoresRegisters : Prop :=
  ∀ (s : State) (x : Nibble), 0x200 ≤ s.I.toNat → s.I.toNat + x.toNat ≤ 0x1000 →
    ∃ t, exec (.storeRegs x) s = .next t ∧
      ∀ u : State, u.I = t.I → (∀ a, u.byteAt a = t.byteAt a) →
        ∃ v, exec (.loadRegs x) u = .next v ∧
          ∀ r : Nibble, v.reg r = if r.toNat < x.toNat then s.reg r else u.reg r

/-- At a self-jump every STEP leaves the state unchanged and every TICK leaves it parked. R251: "Once parked, every
further STEP leaves the state unchanged, and TICKs still change the timers". -/
def Obligations.ParkedCoreStaysPut : Prop :=
  ∀ s : State, s.Parked → step s = .next s ∧ ∃ t, tick s = .next t ∧ t.Parked ∧ t.pc = s.pc

/-- TICK lowers DT and ST by one, floor 0, and changes nothing else; on a halted core it has no step. R236. -/
def Obligations.TickDecrementsBothTimers : Prop :=
  (∀ s : State, s.fault = none → ∃ t, deliver .tick s = .next t ∧ t.DT.toNat = s.DT.toNat - 1 ∧
    t.ST.toNat = s.ST.toNat - 1 ∧ t.pc = s.pc ∧ KeepsAllBut [.delay, .sound] s t) ∧
  (∀ (s : State) (f : Fault), s.fault = some f → ∀ t, deliver .tick s ≠ .next t)

/-- KEY_SET(k, b) sets latch k to b and changes nothing else. R244: "sets `keypad[k] <- b`". That it has this effect
on a halted core too is the model's choice (log entry 11). -/
def Obligations.KeySetWritesOneLatch : Prop :=
  ∀ (s : State) (k : Nibble) (b : Bool), ∃ t, deliver (.keySet k b) s = .next t ∧ t.key k = b ∧
    (∀ q, q ≠ k → t.key q = s.key q) ∧ t.pc = s.pc ∧ KeepsAllBut [.keys] s t

/-- REDRAW_ACK clears redraw and changes nothing else, and apart from RESET no other event clears it. R243: "Nothing
else clears `redraw`"; RESET clears it by R37. On a halted core: log entry 11. -/
def Obligations.OnlyTheAcknowledgementClearsRedraw : Prop :=
  (∀ s : State, ∃ t, deliver .redrawAck s = .next t ∧ t.redraw = false ∧ t.pc = s.pc ∧
    KeepsAllBut [.redrawFlag] s t) ∧
  (∀ (e : Event) (s t : State), deliver e s = .next t → s.redraw = true → t.redraw = false →
    e = .redrawAck ∨ e = .reset)

/-- LOAD_ROM copies at most 3584 bytes to 0x200 onward and nothing else; a longer one faults and copies nothing.
R264. That LOAD_ROM comes at most once and before the first STEP is the host's duty (log entry 6; once after
each RESET, log entry 16). On a halted core: log entry 11. -/
def Obligations.LoadRomCopiesTheProgram : Prop :=
  (∀ (bytes : List Byte) (s : State), bytes.length ≤ 3584 → ∃ t, deliver (.loadRom bytes) s = .next t ∧
    (∀ k (h : k < bytes.length), t.byteAt (0x200 + k) = bytes[k]) ∧
    (∀ a, (a < 0x200 ∨ 0x200 + bytes.length ≤ a) → t.byteAt a = s.byteAt a) ∧
    t.pc = s.pc ∧ KeepsAllBut [.memory] s t) ∧
  (∀ (bytes : List Byte) (s : State), 3584 < bytes.length →
    deliver (.loadRom bytes) s = .next { s with fault := some (.romTooLarge bytes.length) })

/-- CLS clears all 2048 cells, sets redraw, advances pc by 2 and leaves everything else. R102. -/
def Obligations.ClsClearsTheScreen : Prop :=
  (∀ w : Word, w &&& 0xF0FF#16 = 0x00E0#16 → decode w = .ok .cls) ∧
  ∀ s : State, ∃ t, exec .cls s = .next t ∧ (∀ c < 2048, t.cell c = false) ∧ t.redraw = true ∧
    t.pc = s.pc + 2#16 ∧ KeepsAllBut [.display, .redrawFlag] s t

/-- RET pops: pc is stack[sp] + 2 and sp falls by one; at sp = 0 it takes StackUnderflow(pc). R121. -/
def Obligations.RetPopsTheCallStack : Prop :=
  (∀ w : Word, w &&& 0xF0FF#16 = 0x00EE#16 → decode w = .ok .ret) ∧
  (∀ s : State, 0 < s.sp.val → ∃ t, exec .ret s = .next t ∧ t.pc = s.stack[s.sp] + 2#16 ∧
    t.sp.val + 1 = s.sp.val ∧ (∀ j : Fin 16, t.stack[j] = s.stack[j]) ∧ KeepsAllBut [.callStack] s t) ∧
  (∀ s : State, s.sp.val = 0 → exec .ret s = .next { s with fault := some (.stackUnderflow s.pc) })

/-- JP nnn sets pc to nnn and changes nothing else. R122. -/
def Obligations.JpJumpsToItsAddress : Prop :=
  (∀ w : Word, w &&& 0xF000#16 = 0x1000#16 → decode w = .ok (.jp (w.extractLsb' 0 12))) ∧
  ∀ (nnn : Addr12) (s : State), ∃ t, exec (.jp nnn) s = .next t ∧ t.pc.toNat = nnn.toNat ∧ KeepsAllBut [] s t

/-- CALL nnn pushes its own address and jumps; at sp = 15 it takes StackOverflow(pc). R123. -/
def Obligations.CallPushesItsOwnAddress : Prop :=
  (∀ w : Word, w &&& 0xF000#16 = 0x2000#16 → decode w = .ok (.call (w.extractLsb' 0 12))) ∧
  (∀ (nnn : Addr12) (s : State), s.sp.val < 15 → ∃ t, exec (.call nnn) s = .next t ∧ t.sp.val = s.sp.val + 1 ∧
    t.stack[t.sp] = s.pc ∧ (∀ j : Fin 16, j.val ≠ s.sp.val + 1 → t.stack[j] = s.stack[j]) ∧
    t.pc.toNat = nnn.toNat ∧ KeepsAllBut [.callStack] s t) ∧
  (∀ (nnn : Addr12) (s : State), s.sp.val = 15 →
    exec (.call nnn) s = .next { s with fault := some (.stackOverflow s.pc) })

/-- SE Vx, kk skips when V[x] = kk. R124. -/
def Obligations.SeImmediateSkipsIfEqual : Prop :=
  (∀ w : Word, w &&& 0xF000#16 = 0x3000#16 → decode w = .ok (.seImm (w.extractLsb' 8 4) (w.extractLsb' 0 8))) ∧
  ∀ (x : Nibble) (kk : Byte) (s : State), ∃ t, exec (.seImm x kk) s = .next t ∧
    t.pc = (if s.reg x = kk then s.pc + 4#16 else s.pc + 2#16) ∧ KeepsAllBut [] s t

/-- SNE Vx, kk skips when V[x] is not kk. R125. -/
def Obligations.SneImmediateSkipsIfNotEqual : Prop :=
  (∀ w : Word, w &&& 0xF000#16 = 0x4000#16 → decode w = .ok (.sneImm (w.extractLsb' 8 4) (w.extractLsb' 0 8))) ∧
  ∀ (x : Nibble) (kk : Byte) (s : State), ∃ t, exec (.sneImm x kk) s = .next t ∧
    t.pc = (if s.reg x ≠ kk then s.pc + 4#16 else s.pc + 2#16) ∧ KeepsAllBut [] s t

/-- SE Vx, Vy skips when the register values are equal. R126. -/
def Obligations.SeRegisterSkipsIfEqual : Prop :=
  (∀ w : Word, w &&& 0xF000#16 = 0x5000#16 → decode w = .ok (.seReg (w.extractLsb' 8 4) (w.extractLsb' 4 4))) ∧
  ∀ (x y : Nibble) (s : State), ∃ t, exec (.seReg x y) s = .next t ∧
    t.pc = (if s.reg x = s.reg y then s.pc + 4#16 else s.pc + 2#16) ∧ KeepsAllBut [] s t

/-- SNE Vx, Vy skips when the register values differ. R127. -/
def Obligations.SneRegisterSkipsIfDifferent : Prop :=
  (∀ w : Word, w &&& 0xF000#16 = 0x9000#16 → decode w = .ok (.sneReg (w.extractLsb' 8 4) (w.extractLsb' 4 4))) ∧
  ∀ (x y : Nibble) (s : State), ∃ t, exec (.sneReg x y) s = .next t ∧
    t.pc = (if s.reg x ≠ s.reg y then s.pc + 4#16 else s.pc + 2#16) ∧ KeepsAllBut [] s t

/-- JP V0, nnn sets pc to nnn + V0 + 2, exactly, and changes nothing else. R128. -/
def Obligations.JpV0AddsV0AndTwo : Prop :=
  (∀ w : Word, w &&& 0xF000#16 = 0xB000#16 → decode w = .ok (.jpV0 (w.extractLsb' 0 12))) ∧
  ∀ (nnn : Addr12) (s : State), ∃ t, exec (.jpV0 nnn) s = .next t ∧
    t.pc.toNat = nnn.toNat + (s.reg 0x0#4).toNat + 2 ∧ KeepsAllBut [] s t

/-- LD Vx, kk writes kk to V[x]. R152. -/
def Obligations.LdImmediateLoadsTheByte : Prop :=
  (∀ w : Word, w &&& 0xF000#16 = 0x6000#16 → decode w = .ok (.ldImm (w.extractLsb' 8 4) (w.extractLsb' 0 8))) ∧
  ∀ (x : Nibble) (kk : Byte) (s : State), ∃ t, exec (.ldImm x kk) s = .next t ∧ t.reg x = kk ∧
    (∀ r, r ≠ x → t.reg r = s.reg r) ∧ t.pc = s.pc + 2#16 ∧ KeepsAllBut [.regs] s t

/-- ADD Vx, kk adds modulo 256 and sets no flag. R153. -/
def Obligations.AddImmediateWrapsWithoutFlag : Prop :=
  (∀ w : Word, w &&& 0xF000#16 = 0x7000#16 → decode w = .ok (.addImm (w.extractLsb' 8 4) (w.extractLsb' 0 8))) ∧
  ∀ (x : Nibble) (kk : Byte) (s : State), ∃ t, exec (.addImm x kk) s = .next t ∧ (t.reg x).toNat = ((s.reg x).toNat + kk.toNat) % 256 ∧
    (∀ r, r ≠ x → t.reg r = s.reg r) ∧ t.pc = s.pc + 2#16 ∧ KeepsAllBut [.regs] s t

/-- LD Vx, Vy copies V[y] to V[x]. R154. -/
def Obligations.LdRegisterCopies : Prop :=
  (∀ w : Word, w &&& 0xF00F#16 = 0x8000#16 → decode w = .ok (.ldReg (w.extractLsb' 8 4) (w.extractLsb' 4 4))) ∧
  ∀ (x y : Nibble) (s : State), ∃ t, exec (.ldReg x y) s = .next t ∧ t.reg x = s.reg y ∧
    (∀ r, r ≠ x → t.reg r = s.reg r) ∧ t.pc = s.pc + 2#16 ∧ KeepsAllBut [.regs] s t

/-- OR Vx, Vy: each bit of V[x] is the OR, VF not reset. R155. That VF is not reset is the spec's own inference
(R155). -/
def Obligations.OrCombinesBitwise : Prop :=
  (∀ w : Word, w &&& 0xF00F#16 = 0x8001#16 → decode w = .ok (.orReg (w.extractLsb' 8 4) (w.extractLsb' 4 4))) ∧
  ∀ (x y : Nibble) (s : State), ∃ t, exec (.orReg x y) s = .next t ∧ (∀ b < 8, (t.reg x).getLsbD b = ((s.reg x).getLsbD b || (s.reg y).getLsbD b)) ∧
    (∀ r, r ≠ x → t.reg r = s.reg r) ∧ t.pc = s.pc + 2#16 ∧ KeepsAllBut [.regs] s t

/-- AND Vx, Vy: each bit of V[x] is the AND, VF not reset. R156. That VF is not reset is the spec's own inference
(R155). -/
def Obligations.AndCombinesBitwise : Prop :=
  (∀ w : Word, w &&& 0xF00F#16 = 0x8002#16 → decode w = .ok (.andReg (w.extractLsb' 8 4) (w.extractLsb' 4 4))) ∧
  ∀ (x y : Nibble) (s : State), ∃ t, exec (.andReg x y) s = .next t ∧ (∀ b < 8, (t.reg x).getLsbD b = ((s.reg x).getLsbD b && (s.reg y).getLsbD b)) ∧
    (∀ r, r ≠ x → t.reg r = s.reg r) ∧ t.pc = s.pc + 2#16 ∧ KeepsAllBut [.regs] s t

/-- XOR Vx, Vy: each bit of V[x] is the exclusive OR, VF not reset. R157. That VF is not reset is the spec's own
inference (R155). -/
def Obligations.XorCombinesBitwise : Prop :=
  (∀ w : Word, w &&& 0xF00F#16 = 0x8003#16 → decode w = .ok (.xorReg (w.extractLsb' 8 4) (w.extractLsb' 4 4))) ∧
  ∀ (x y : Nibble) (s : State), ∃ t, exec (.xorReg x y) s = .next t ∧ (∀ b < 8, (t.reg x).getLsbD b = ((s.reg x).getLsbD b ^^ (s.reg y).getLsbD b)) ∧
    (∀ r, r ≠ x → t.reg r = s.reg r) ∧ t.pc = s.pc + 2#16 ∧ KeepsAllBut [.regs] s t

/-- ADD Vx, Vy: sum modulo 256, then VF = carry. R158. -/
def Obligations.AddSetsSumAndCarry : Prop :=
  (∀ w : Word, w &&& 0xF00F#16 = 0x8004#16 → decode w = .ok (.addReg (w.extractLsb' 8 4) (w.extractLsb' 4 4))) ∧
  ∀ (x y : Nibble) (s : State), ∃ t, exec (.addReg x y) s = .next t ∧
    (t.reg 0xF#4).toNat = (if 255 < (s.reg x).toNat + (s.reg y).toNat then 1 else 0) ∧
    (x ≠ 0xF#4 → (t.reg x).toNat = ((s.reg x).toNat + (s.reg y).toNat) % 256) ∧
    (∀ r, r ≠ x → r ≠ 0xF#4 → t.reg r = s.reg r) ∧ t.pc = s.pc + 2#16 ∧ KeepsAllBut [.regs] s t

/-- SUB Vx, Vy: V[x] - V[y] modulo 256, then VF = no borrow. R159. -/
def Obligations.SubSetsDifferenceAndNotBorrow : Prop :=
  (∀ w : Word, w &&& 0xF00F#16 = 0x8005#16 → decode w = .ok (.subReg (w.extractLsb' 8 4) (w.extractLsb' 4 4))) ∧
  ∀ (x y : Nibble) (s : State), ∃ t, exec (.subReg x y) s = .next t ∧
    (t.reg 0xF#4).toNat = (if (s.reg y).toNat ≤ (s.reg x).toNat then 1 else 0) ∧
    (x ≠ 0xF#4 → (t.reg x).toNat = (256 + (s.reg x).toNat - (s.reg y).toNat) % 256) ∧
    (∀ r, r ≠ x → r ≠ 0xF#4 → t.reg r = s.reg r) ∧ t.pc = s.pc + 2#16 ∧ KeepsAllBut [.regs] s t

/-- SHR Vx, Vy: V[y] shifted right by one, then VF = the bit shifted out. R160. -/
def Obligations.ShrShiftsVyRight : Prop :=
  (∀ w : Word, w &&& 0xF00F#16 = 0x8006#16 → decode w = .ok (.shrReg (w.extractLsb' 8 4) (w.extractLsb' 4 4))) ∧
  ∀ (x y : Nibble) (s : State), ∃ t, exec (.shrReg x y) s = .next t ∧
    (t.reg 0xF#4).toNat = (s.reg y).toNat % 2 ∧
    (x ≠ 0xF#4 → (t.reg x).toNat = (s.reg y).toNat / 2) ∧
    (∀ r, r ≠ x → r ≠ 0xF#4 → t.reg r = s.reg r) ∧ t.pc = s.pc + 2#16 ∧ KeepsAllBut [.regs] s t

/-- SUBN Vx, Vy: V[y] - V[x] modulo 256, then VF = no borrow. R161. -/
def Obligations.SubnSetsDifferenceAndNotBorrow : Prop :=
  (∀ w : Word, w &&& 0xF00F#16 = 0x8007#16 → decode w = .ok (.subnReg (w.extractLsb' 8 4) (w.extractLsb' 4 4))) ∧
  ∀ (x y : Nibble) (s : State), ∃ t, exec (.subnReg x y) s = .next t ∧
    (t.reg 0xF#4).toNat = (if (s.reg x).toNat ≤ (s.reg y).toNat then 1 else 0) ∧
    (x ≠ 0xF#4 → (t.reg x).toNat = (256 + (s.reg y).toNat - (s.reg x).toNat) % 256) ∧
    (∀ r, r ≠ x → r ≠ 0xF#4 → t.reg r = s.reg r) ∧ t.pc = s.pc + 2#16 ∧ KeepsAllBut [.regs] s t

/-- SHL Vx, Vy: V[y] shifted left by one modulo 256, then VF = the bit shifted out. R162. -/
def Obligations.ShlShiftsVyLeft : Prop :=
  (∀ w : Word, w &&& 0xF00F#16 = 0x800E#16 → decode w = .ok (.shlReg (w.extractLsb' 8 4) (w.extractLsb' 4 4))) ∧
  ∀ (x y : Nibble) (s : State), ∃ t, exec (.shlReg x y) s = .next t ∧
    (t.reg 0xF#4).toNat = (s.reg y).toNat / 128 ∧
    (x ≠ 0xF#4 → (t.reg x).toNat = (s.reg y).toNat * 2 % 256) ∧
    (∀ r, r ≠ x → r ≠ 0xF#4 → t.reg r = s.reg r) ∧ t.pc = s.pc + 2#16 ∧ KeepsAllBut [.regs] s t

/-- LD I, nnn sets I to nnn. R180. -/
def Obligations.LdIndexLoadsTheAddress : Prop :=
  (∀ w : Word, w &&& 0xF000#16 = 0xA000#16 → decode w = .ok (.ldI (w.extractLsb' 0 12))) ∧
  ∀ (nnn : Addr12) (s : State), ∃ t, exec (.ldI nnn) s = .next t ∧ t.I.toNat = nnn.toNat ∧
    t.pc = s.pc + 2#16 ∧ KeepsAllBut [.index] s t

/-- RND Vx, kk writes one random byte masked by kk and makes exactly one draw. R164, R163. That the free byte is
`Config.randomByte` of the field `draws`, which each draw advances, is the model's choice (log entry 4). -/
def Obligations.RndMasksOneFreeByte : Prop :=
  (∀ w : Word, w &&& 0xF000#16 = 0xC000#16 → decode w = .ok (.rnd (w.extractLsb' 8 4) (w.extractLsb' 0 8))) ∧
  ∀ (x : Nibble) (kk : Byte) (s : State), ∃ t, exec (.rnd x kk) s = .next t ∧
    t.reg x = Config.randomByte s.draws &&& kk ∧ t.draws = s.draws + 1 ∧
    (∀ r, r ≠ x → t.reg r = s.reg r) ∧ t.pc = s.pc + 2#16 ∧ KeepsAllBut [.regs, .drawCount] s t

/-- DRW flips exactly the cells under the sprite's set bits, VF says whether one was lit, redraw is set. R103. -/
def Obligations.DrwXorsTheSprite : Prop :=
  (∀ w : Word, w &&& 0xF000#16 = 0xD000#16 → decode w = .ok (.drw (w.extractLsb' 8 4) (w.extractLsb' 4 4) (w.extractLsb' 0 4))) ∧
  (∀ (x y n : Nibble) (s : State), (n.toNat = 0 ∨ s.I.toNat + n.toNat ≤ 0x1000) →
    ∃ t, exec (.drw x y n) s = .next t ∧
      (∀ c < 2048, (s.SpriteCovers x y n c → t.cell c = !s.cell c) ∧
        (¬ s.SpriteCovers x y n c → t.cell c = s.cell c)) ∧
      ((∃ c < 2048, s.SpriteCovers x y n c ∧ s.cell c = true) → t.reg 0xF#4 = 1#8) ∧
      (¬ (∃ c < 2048, s.SpriteCovers x y n c ∧ s.cell c = true) → t.reg 0xF#4 = 0#8) ∧
      t.redraw = true ∧ (∀ r, r ≠ 0xF#4 → t.reg r = s.reg r) ∧ t.pc = s.pc + 2#16 ∧
      KeepsAllBut [.regs, .display, .redrawFlag] s t) ∧
  (∀ (x y n : Nibble) (s : State), 0 < n.toNat → 0x1000 < s.I.toNat + n.toNat →
    exec (.drw x y n) s = .next { s with fault := some (.memOutOfBounds (max s.I.toNat 0x1000)) })

/-- SKP Vx skips if key V[x] is pressed and never clears it; V[x] >= 16 takes KeyIndexOutOfRange. R201. -/
def Obligations.SkpSkipsIfPressed : Prop :=
  (∀ w : Word, w &&& 0xF0FF#16 = 0xE09E#16 → decode w = .ok (.skp (w.extractLsb' 8 4))) ∧
  (∀ (x k : Nibble) (s : State), (s.reg x).toNat = k.toNat → ∃ t, exec (.skp x) s = .next t ∧
    t.pc = (if s.key k = true then s.pc + 4#16 else s.pc + 2#16) ∧ KeepsAllBut [] s t) ∧
  (∀ (x : Nibble) (s : State), 16 ≤ (s.reg x).toNat →
    exec (.skp x) s = .next { s with fault := some (.keyIndexOutOfRange (s.reg x)) })

/-- SKNP Vx skips if key V[x] is up, else clears its latch; V[x] >= 16 takes KeyIndexOutOfRange. R202. -/
def Obligations.SknpSkipsOrClearsTheLatch : Prop :=
  (∀ w : Word, w &&& 0xF0FF#16 = 0xE0A1#16 → decode w = .ok (.sknp (w.extractLsb' 8 4))) ∧
  (∀ (x k : Nibble) (s : State), (s.reg x).toNat = k.toNat → s.key k = false → ∃ t, exec (.sknp x) s = .next t ∧
    t.pc = s.pc + 4#16 ∧ KeepsAllBut [] s t) ∧
  (∀ (x k : Nibble) (s : State), (s.reg x).toNat = k.toNat → s.key k = true → ∃ t, exec (.sknp x) s = .next t ∧
    t.key k = false ∧ (∀ q, q ≠ k → t.key q = s.key q) ∧ t.pc = s.pc + 2#16 ∧ KeepsAllBut [.keys] s t) ∧
  (∀ (x : Nibble) (s : State), 16 ≤ (s.reg x).toNat →
    exec (.sknp x) s = .next { s with fault := some (.keyIndexOutOfRange (s.reg x)) })

/-- LD Vx, K writes 1 if some key is pressed; with none it changes nothing, so the same word runs again. R203. -/
def Obligations.LdKeyWaitsForAKey : Prop :=
  (∀ w : Word, w &&& 0xF0FF#16 = 0xF00A#16 → decode w = .ok (.ldVxK (w.extractLsb' 8 4))) ∧
  (∀ (x : Nibble) (s : State), (∃ k : Nibble, s.key k = true) → ∃ t, exec (.ldVxK x) s = .next t ∧
    t.reg x = 1#8 ∧ (∀ r, r ≠ x → t.reg r = s.reg r) ∧ t.pc = s.pc + 2#16 ∧ KeepsAllBut [.regs] s t) ∧
  (∀ (x : Nibble) (s : State), (∀ k : Nibble, s.key k = false) → exec (.ldVxK x) s = .next s)

/-- LD Vx, DT writes DT to V[x]. R210. -/
def Obligations.LdReadsTheDelayTimer : Prop :=
  (∀ w : Word, w &&& 0xF0FF#16 = 0xF007#16 → decode w = .ok (.ldVxDT (w.extractLsb' 8 4))) ∧
  ∀ (x : Nibble) (s : State), ∃ t, exec (.ldVxDT x) s = .next t ∧ t.reg x = s.DT ∧
    (∀ r, r ≠ x → t.reg r = s.reg r) ∧ t.pc = s.pc + 2#16 ∧ KeepsAllBut [.regs] s t

/-- LD DT, Vx sets DT to V[x]. R211. -/
def Obligations.LdSetsTheDelayTimer : Prop :=
  (∀ w : Word, w &&& 0xF0FF#16 = 0xF015#16 → decode w = .ok (.ldDTVx (w.extractLsb' 8 4))) ∧
  ∀ (x : Nibble) (s : State), ∃ t, exec (.ldDTVx x) s = .next t ∧ t.DT = s.reg x ∧ t.pc = s.pc + 2#16 ∧
    KeepsAllBut [.delay] s t

/-- LD ST, Vx sets ST to V[x]. R212. -/
def Obligations.LdSetsTheSoundTimer : Prop :=
  (∀ w : Word, w &&& 0xF0FF#16 = 0xF018#16 → decode w = .ok (.ldSTVx (w.extractLsb' 8 4))) ∧
  ∀ (x : Nibble) (s : State), ∃ t, exec (.ldSTVx x) s = .next t ∧ t.ST = s.reg x ∧ t.pc = s.pc + 2#16 ∧
    KeepsAllBut [.sound] s t

/-- ADD I, Vx adds V[x] to I modulo 2^16 and sets no flag. R181. -/
def Obligations.AddIndexWrapsAtItsWidth : Prop :=
  (∀ w : Word, w &&& 0xF0FF#16 = 0xF01E#16 → decode w = .ok (.addI (w.extractLsb' 8 4))) ∧
  ∀ (x : Nibble) (s : State), ∃ t, exec (.addI x) s = .next t ∧
    t.I.toNat = (s.I.toNat + (s.reg x).toNat) % 65536 ∧ t.pc = s.pc + 2#16 ∧ KeepsAllBut [.index] s t

/-- LD F, Vx sets I to V[x] * 5, exactly, with no mask. R182. -/
def Obligations.LdFontPointsAtTheGlyph : Prop :=
  (∀ w : Word, w &&& 0xF0FF#16 = 0xF029#16 → decode w = .ok (.ldF (w.extractLsb' 8 4))) ∧
  ∀ (x : Nibble) (s : State), ∃ t, exec (.ldF x) s = .next t ∧ t.I.toNat = (s.reg x).toNat * 5 ∧
    t.pc = s.pc + 2#16 ∧ KeepsAllBut [.index] s t

/-- LD B, Vx stores the hundreds, tens and units of V[x] at I, I+1, I+2, or faults and stores nothing. R183. -/
def Obligations.LdBcdStoresThreeDigits : Prop :=
  (∀ w : Word, w &&& 0xF0FF#16 = 0xF033#16 → decode w = .ok (.ldB (w.extractLsb' 8 4))) ∧
  (∀ (x : Nibble) (s : State), 0x200 ≤ s.I.toNat → s.I.toNat + 3 ≤ 0x1000 →
    ∃ t, exec (.ldB x) s = .next t ∧ (t.byteAt (s.addr 0)).toNat = (s.reg x).toNat / 100 ∧
      (t.byteAt (s.addr 1)).toNat = (s.reg x).toNat / 10 % 10 ∧
      (t.byteAt (s.addr 2)).toNat = (s.reg x).toNat % 10 ∧
      (∀ a, (∀ k < 3, a ≠ s.addr k) → t.byteAt a = s.byteAt a) ∧
      t.pc = s.pc + 2#16 ∧ KeepsAllBut [.memory] s t) ∧
  (∀ (x : Nibble) (s : State), s.I.toNat < 0x200 →
    exec (.ldB x) s = .next { s with fault := some (.reservedWrite s.I.toNat) }) ∧
  (∀ (x : Nibble) (s : State), 0x1000 < s.I.toNat + 3 →
    exec (.ldB x) s = .next { s with fault := some (.memOutOfBounds (max s.I.toNat 0x1000)) })

/-- LD [I], Vx stores V0..V(x-1) at I onward, exclusive of Vx, or faults and stores nothing. R184. -/
def Obligations.LdStoresRegistersBelowX : Prop :=
  (∀ w : Word, w &&& 0xF0FF#16 = 0xF055#16 → decode w = .ok (.storeRegs (w.extractLsb' 8 4))) ∧
  (∀ (x : Nibble) (s : State), (x.toNat = 0 ∨ (0x200 ≤ s.I.toNat ∧ s.I.toNat + x.toNat ≤ 0x1000)) →
    ∃ t, exec (.storeRegs x) s = .next t ∧
      (∀ k : Nibble, k.toNat < x.toNat → t.byteAt (s.addr k.toNat) = s.reg k) ∧
      (∀ a, (∀ k < x.toNat, a ≠ s.addr k) → t.byteAt a = s.byteAt a) ∧
      t.pc = s.pc + 2#16 ∧ KeepsAllBut [.memory] s t) ∧
  (∀ (x : Nibble) (s : State), 0 < x.toNat → s.I.toNat < 0x200 →
    exec (.storeRegs x) s = .next { s with fault := some (.reservedWrite s.I.toNat) }) ∧
  (∀ (x : Nibble) (s : State), 0 < x.toNat → 0x1000 < s.I.toNat + x.toNat →
    exec (.storeRegs x) s = .next { s with fault := some (.memOutOfBounds (max s.I.toNat 0x1000)) })

/-- LD Vx, [I] loads V0..V(x-1) from I onward, exclusive of Vx, or faults and loads nothing. R185. -/
def Obligations.LdLoadsRegistersBelowX : Prop :=
  (∀ w : Word, w &&& 0xF0FF#16 = 0xF065#16 → decode w = .ok (.loadRegs (w.extractLsb' 8 4))) ∧
  (∀ (x : Nibble) (s : State), (x.toNat = 0 ∨ s.I.toNat + x.toNat ≤ 0x1000) →
    ∃ t, exec (.loadRegs x) s = .next t ∧
      (∀ r : Nibble, t.reg r = if r.toNat < x.toNat then s.byteAt (s.addr r.toNat) else s.reg r) ∧
      t.pc = s.pc + 2#16 ∧ KeepsAllBut [.regs] s t) ∧
  (∀ (x : Nibble) (s : State), 0 < x.toNat → 0x1000 < s.I.toNat + x.toNat →
    exec (.loadRegs x) s = .next { s with fault := some (.memOutOfBounds (max s.I.toNat 0x1000)) })
end

