-- ==== Sys2Proof/Laws/State.lean ====
section
/-!
SUPPORT. One lemma per field per update of the state, true by `rfl`, so that no proof unfolds a record update; then
the same for the reads (`reg`, `byteAt`, `cell`, `key`).
-/
namespace Sys2Proof.Machine

variable (s : State)

/-! #### setByte -/

@[simp] theorem State.setByte_mem (a : Nat) (v : Byte) : (s.setByte a v).mem = Memory.put s.glyphs s.mem a v := rfl
@[simp] theorem State.setByte_glyphs (a : Nat) (v : Byte) : (s.setByte a v).glyphs = s.glyphs := rfl
@[simp] theorem State.setByte_V (a : Nat) (v : Byte) : (s.setByte a v).V = s.V := rfl
@[simp] theorem State.setByte_I (a : Nat) (v : Byte) : (s.setByte a v).I = s.I := rfl
@[simp] theorem State.setByte_pc (a : Nat) (v : Byte) : (s.setByte a v).pc = s.pc := rfl
@[simp] theorem State.setByte_stack (a : Nat) (v : Byte) : (s.setByte a v).stack = s.stack := rfl
@[simp] theorem State.setByte_sp (a : Nat) (v : Byte) : (s.setByte a v).sp = s.sp := rfl
@[simp] theorem State.setByte_DT (a : Nat) (v : Byte) : (s.setByte a v).DT = s.DT := rfl
@[simp] theorem State.setByte_ST (a : Nat) (v : Byte) : (s.setByte a v).ST = s.ST := rfl
@[simp] theorem State.setByte_fb (a : Nat) (v : Byte) : (s.setByte a v).fb = s.fb := rfl
@[simp] theorem State.setByte_keypad (a : Nat) (v : Byte) : (s.setByte a v).keypad = s.keypad := rfl
@[simp] theorem State.setByte_redraw (a : Nat) (v : Byte) : (s.setByte a v).redraw = s.redraw := rfl
@[simp] theorem State.setByte_fault (a : Nat) (v : Byte) : (s.setByte a v).fault = s.fault := rfl
@[simp] theorem State.setByte_draws (a : Nat) (v : Byte) : (s.setByte a v).draws = s.draws := rfl

/-! #### setReg -/

@[simp] theorem State.setReg_mem (r : Nibble) (v : Byte) : (s.setReg r v).mem = s.mem := rfl
@[simp] theorem State.setReg_glyphs (r : Nibble) (v : Byte) : (s.setReg r v).glyphs = s.glyphs := rfl
@[simp] theorem State.setReg_V (r : Nibble) (v : Byte) : (s.setReg r v).V = s.V.set r.toNat v := rfl
@[simp] theorem State.setReg_I (r : Nibble) (v : Byte) : (s.setReg r v).I = s.I := rfl
@[simp] theorem State.setReg_pc (r : Nibble) (v : Byte) : (s.setReg r v).pc = s.pc := rfl
@[simp] theorem State.setReg_stack (r : Nibble) (v : Byte) : (s.setReg r v).stack = s.stack := rfl
@[simp] theorem State.setReg_sp (r : Nibble) (v : Byte) : (s.setReg r v).sp = s.sp := rfl
@[simp] theorem State.setReg_DT (r : Nibble) (v : Byte) : (s.setReg r v).DT = s.DT := rfl
@[simp] theorem State.setReg_ST (r : Nibble) (v : Byte) : (s.setReg r v).ST = s.ST := rfl
@[simp] theorem State.setReg_fb (r : Nibble) (v : Byte) : (s.setReg r v).fb = s.fb := rfl
@[simp] theorem State.setReg_keypad (r : Nibble) (v : Byte) : (s.setReg r v).keypad = s.keypad := rfl
@[simp] theorem State.setReg_redraw (r : Nibble) (v : Byte) : (s.setReg r v).redraw = s.redraw := rfl
@[simp] theorem State.setReg_fault (r : Nibble) (v : Byte) : (s.setReg r v).fault = s.fault := rfl
@[simp] theorem State.setReg_draws (r : Nibble) (v : Byte) : (s.setReg r v).draws = s.draws := rfl

/-! #### setI -/

@[simp] theorem State.setI_mem (v : Word) : (s.setI v).mem = s.mem := rfl
@[simp] theorem State.setI_glyphs (v : Word) : (s.setI v).glyphs = s.glyphs := rfl
@[simp] theorem State.setI_V (v : Word) : (s.setI v).V = s.V := rfl
@[simp] theorem State.setI_I (v : Word) : (s.setI v).I = v := rfl
@[simp] theorem State.setI_pc (v : Word) : (s.setI v).pc = s.pc := rfl
@[simp] theorem State.setI_stack (v : Word) : (s.setI v).stack = s.stack := rfl
@[simp] theorem State.setI_sp (v : Word) : (s.setI v).sp = s.sp := rfl
@[simp] theorem State.setI_DT (v : Word) : (s.setI v).DT = s.DT := rfl
@[simp] theorem State.setI_ST (v : Word) : (s.setI v).ST = s.ST := rfl
@[simp] theorem State.setI_fb (v : Word) : (s.setI v).fb = s.fb := rfl
@[simp] theorem State.setI_keypad (v : Word) : (s.setI v).keypad = s.keypad := rfl
@[simp] theorem State.setI_redraw (v : Word) : (s.setI v).redraw = s.redraw := rfl
@[simp] theorem State.setI_fault (v : Word) : (s.setI v).fault = s.fault := rfl
@[simp] theorem State.setI_draws (v : Word) : (s.setI v).draws = s.draws := rfl

/-! #### setPc -/

@[simp] theorem State.setPc_mem (v : Word) : (s.setPc v).mem = s.mem := rfl
@[simp] theorem State.setPc_glyphs (v : Word) : (s.setPc v).glyphs = s.glyphs := rfl
@[simp] theorem State.setPc_V (v : Word) : (s.setPc v).V = s.V := rfl
@[simp] theorem State.setPc_I (v : Word) : (s.setPc v).I = s.I := rfl
@[simp] theorem State.setPc_pc (v : Word) : (s.setPc v).pc = v := rfl
@[simp] theorem State.setPc_stack (v : Word) : (s.setPc v).stack = s.stack := rfl
@[simp] theorem State.setPc_sp (v : Word) : (s.setPc v).sp = s.sp := rfl
@[simp] theorem State.setPc_DT (v : Word) : (s.setPc v).DT = s.DT := rfl
@[simp] theorem State.setPc_ST (v : Word) : (s.setPc v).ST = s.ST := rfl
@[simp] theorem State.setPc_fb (v : Word) : (s.setPc v).fb = s.fb := rfl
@[simp] theorem State.setPc_keypad (v : Word) : (s.setPc v).keypad = s.keypad := rfl
@[simp] theorem State.setPc_redraw (v : Word) : (s.setPc v).redraw = s.redraw := rfl
@[simp] theorem State.setPc_fault (v : Word) : (s.setPc v).fault = s.fault := rfl
@[simp] theorem State.setPc_draws (v : Word) : (s.setPc v).draws = s.draws := rfl

/-! #### advance -/

@[simp] theorem State.advance_mem (k : Word) : (s.advance k).mem = s.mem := rfl
@[simp] theorem State.advance_glyphs (k : Word) : (s.advance k).glyphs = s.glyphs := rfl
@[simp] theorem State.advance_V (k : Word) : (s.advance k).V = s.V := rfl
@[simp] theorem State.advance_I (k : Word) : (s.advance k).I = s.I := rfl
@[simp] theorem State.advance_pc (k : Word) : (s.advance k).pc = s.pc + k := rfl
@[simp] theorem State.advance_stack (k : Word) : (s.advance k).stack = s.stack := rfl
@[simp] theorem State.advance_sp (k : Word) : (s.advance k).sp = s.sp := rfl
@[simp] theorem State.advance_DT (k : Word) : (s.advance k).DT = s.DT := rfl
@[simp] theorem State.advance_ST (k : Word) : (s.advance k).ST = s.ST := rfl
@[simp] theorem State.advance_fb (k : Word) : (s.advance k).fb = s.fb := rfl
@[simp] theorem State.advance_keypad (k : Word) : (s.advance k).keypad = s.keypad := rfl
@[simp] theorem State.advance_redraw (k : Word) : (s.advance k).redraw = s.redraw := rfl
@[simp] theorem State.advance_fault (k : Word) : (s.advance k).fault = s.fault := rfl
@[simp] theorem State.advance_draws (k : Word) : (s.advance k).draws = s.draws := rfl

/-! #### setDT -/

@[simp] theorem State.setDT_mem (v : Byte) : (s.setDT v).mem = s.mem := rfl
@[simp] theorem State.setDT_glyphs (v : Byte) : (s.setDT v).glyphs = s.glyphs := rfl
@[simp] theorem State.setDT_V (v : Byte) : (s.setDT v).V = s.V := rfl
@[simp] theorem State.setDT_I (v : Byte) : (s.setDT v).I = s.I := rfl
@[simp] theorem State.setDT_pc (v : Byte) : (s.setDT v).pc = s.pc := rfl
@[simp] theorem State.setDT_stack (v : Byte) : (s.setDT v).stack = s.stack := rfl
@[simp] theorem State.setDT_sp (v : Byte) : (s.setDT v).sp = s.sp := rfl
@[simp] theorem State.setDT_DT (v : Byte) : (s.setDT v).DT = v := rfl
@[simp] theorem State.setDT_ST (v : Byte) : (s.setDT v).ST = s.ST := rfl
@[simp] theorem State.setDT_fb (v : Byte) : (s.setDT v).fb = s.fb := rfl
@[simp] theorem State.setDT_keypad (v : Byte) : (s.setDT v).keypad = s.keypad := rfl
@[simp] theorem State.setDT_redraw (v : Byte) : (s.setDT v).redraw = s.redraw := rfl
@[simp] theorem State.setDT_fault (v : Byte) : (s.setDT v).fault = s.fault := rfl
@[simp] theorem State.setDT_draws (v : Byte) : (s.setDT v).draws = s.draws := rfl

/-! #### setST -/

@[simp] theorem State.setST_mem (v : Byte) : (s.setST v).mem = s.mem := rfl
@[simp] theorem State.setST_glyphs (v : Byte) : (s.setST v).glyphs = s.glyphs := rfl
@[simp] theorem State.setST_V (v : Byte) : (s.setST v).V = s.V := rfl
@[simp] theorem State.setST_I (v : Byte) : (s.setST v).I = s.I := rfl
@[simp] theorem State.setST_pc (v : Byte) : (s.setST v).pc = s.pc := rfl
@[simp] theorem State.setST_stack (v : Byte) : (s.setST v).stack = s.stack := rfl
@[simp] theorem State.setST_sp (v : Byte) : (s.setST v).sp = s.sp := rfl
@[simp] theorem State.setST_DT (v : Byte) : (s.setST v).DT = s.DT := rfl
@[simp] theorem State.setST_ST (v : Byte) : (s.setST v).ST = v := rfl
@[simp] theorem State.setST_fb (v : Byte) : (s.setST v).fb = s.fb := rfl
@[simp] theorem State.setST_keypad (v : Byte) : (s.setST v).keypad = s.keypad := rfl
@[simp] theorem State.setST_redraw (v : Byte) : (s.setST v).redraw = s.redraw := rfl
@[simp] theorem State.setST_fault (v : Byte) : (s.setST v).fault = s.fault := rfl
@[simp] theorem State.setST_draws (v : Byte) : (s.setST v).draws = s.draws := rfl

/-! #### setRedraw -/

@[simp] theorem State.setRedraw_mem (b : Bool) : (s.setRedraw b).mem = s.mem := rfl
@[simp] theorem State.setRedraw_glyphs (b : Bool) : (s.setRedraw b).glyphs = s.glyphs := rfl
@[simp] theorem State.setRedraw_V (b : Bool) : (s.setRedraw b).V = s.V := rfl
@[simp] theorem State.setRedraw_I (b : Bool) : (s.setRedraw b).I = s.I := rfl
@[simp] theorem State.setRedraw_pc (b : Bool) : (s.setRedraw b).pc = s.pc := rfl
@[simp] theorem State.setRedraw_stack (b : Bool) : (s.setRedraw b).stack = s.stack := rfl
@[simp] theorem State.setRedraw_sp (b : Bool) : (s.setRedraw b).sp = s.sp := rfl
@[simp] theorem State.setRedraw_DT (b : Bool) : (s.setRedraw b).DT = s.DT := rfl
@[simp] theorem State.setRedraw_ST (b : Bool) : (s.setRedraw b).ST = s.ST := rfl
@[simp] theorem State.setRedraw_fb (b : Bool) : (s.setRedraw b).fb = s.fb := rfl
@[simp] theorem State.setRedraw_keypad (b : Bool) : (s.setRedraw b).keypad = s.keypad := rfl
@[simp] theorem State.setRedraw_redraw (b : Bool) : (s.setRedraw b).redraw = b := rfl
@[simp] theorem State.setRedraw_fault (b : Bool) : (s.setRedraw b).fault = s.fault := rfl
@[simp] theorem State.setRedraw_draws (b : Bool) : (s.setRedraw b).draws = s.draws := rfl

/-! #### push -/

@[simp] theorem State.push_mem (v : Word) : (s.push v).mem = s.mem := rfl
@[simp] theorem State.push_glyphs (v : Word) : (s.push v).glyphs = s.glyphs := rfl
@[simp] theorem State.push_V (v : Word) : (s.push v).V = s.V := rfl
@[simp] theorem State.push_I (v : Word) : (s.push v).I = s.I := rfl
@[simp] theorem State.push_pc (v : Word) : (s.push v).pc = s.pc := rfl
@[simp] theorem State.push_stack (v : Word) : (s.push v).stack = s.stack.set (s.sp + 1 : Fin 16).val v := rfl
@[simp] theorem State.push_sp (v : Word) : (s.push v).sp = s.sp + 1 := rfl
@[simp] theorem State.push_DT (v : Word) : (s.push v).DT = s.DT := rfl
@[simp] theorem State.push_ST (v : Word) : (s.push v).ST = s.ST := rfl
@[simp] theorem State.push_fb (v : Word) : (s.push v).fb = s.fb := rfl
@[simp] theorem State.push_keypad (v : Word) : (s.push v).keypad = s.keypad := rfl
@[simp] theorem State.push_redraw (v : Word) : (s.push v).redraw = s.redraw := rfl
@[simp] theorem State.push_fault (v : Word) : (s.push v).fault = s.fault := rfl
@[simp] theorem State.push_draws (v : Word) : (s.push v).draws = s.draws := rfl

/-! #### pop -/

@[simp] theorem State.pop_mem : (s.pop).mem = s.mem := rfl
@[simp] theorem State.pop_glyphs : (s.pop).glyphs = s.glyphs := rfl
@[simp] theorem State.pop_V : (s.pop).V = s.V := rfl
@[simp] theorem State.pop_I : (s.pop).I = s.I := rfl
@[simp] theorem State.pop_pc : (s.pop).pc = s.pc := rfl
@[simp] theorem State.pop_stack : (s.pop).stack = s.stack := rfl
@[simp] theorem State.pop_sp : (s.pop).sp = s.sp - 1 := rfl
@[simp] theorem State.pop_DT : (s.pop).DT = s.DT := rfl
@[simp] theorem State.pop_ST : (s.pop).ST = s.ST := rfl
@[simp] theorem State.pop_fb : (s.pop).fb = s.fb := rfl
@[simp] theorem State.pop_keypad : (s.pop).keypad = s.keypad := rfl
@[simp] theorem State.pop_redraw : (s.pop).redraw = s.redraw := rfl
@[simp] theorem State.pop_fault : (s.pop).fault = s.fault := rfl
@[simp] theorem State.pop_draws : (s.pop).draws = s.draws := rfl

/-! #### setFb -/

@[simp] theorem State.setFb_mem (f : Framebuffer) : (s.setFb f).mem = s.mem := rfl
@[simp] theorem State.setFb_glyphs (f : Framebuffer) : (s.setFb f).glyphs = s.glyphs := rfl
@[simp] theorem State.setFb_V (f : Framebuffer) : (s.setFb f).V = s.V := rfl
@[simp] theorem State.setFb_I (f : Framebuffer) : (s.setFb f).I = s.I := rfl
@[simp] theorem State.setFb_pc (f : Framebuffer) : (s.setFb f).pc = s.pc := rfl
@[simp] theorem State.setFb_stack (f : Framebuffer) : (s.setFb f).stack = s.stack := rfl
@[simp] theorem State.setFb_sp (f : Framebuffer) : (s.setFb f).sp = s.sp := rfl
@[simp] theorem State.setFb_DT (f : Framebuffer) : (s.setFb f).DT = s.DT := rfl
@[simp] theorem State.setFb_ST (f : Framebuffer) : (s.setFb f).ST = s.ST := rfl
@[simp] theorem State.setFb_fb (f : Framebuffer) : (s.setFb f).fb = f := rfl
@[simp] theorem State.setFb_keypad (f : Framebuffer) : (s.setFb f).keypad = s.keypad := rfl
@[simp] theorem State.setFb_redraw (f : Framebuffer) : (s.setFb f).redraw = s.redraw := rfl
@[simp] theorem State.setFb_fault (f : Framebuffer) : (s.setFb f).fault = s.fault := rfl
@[simp] theorem State.setFb_draws (f : Framebuffer) : (s.setFb f).draws = s.draws := rfl

/-! #### setKey -/

@[simp] theorem State.setKey_mem (k : Nibble) (b : Bool) : (s.setKey k b).mem = s.mem := rfl
@[simp] theorem State.setKey_glyphs (k : Nibble) (b : Bool) : (s.setKey k b).glyphs = s.glyphs := rfl
@[simp] theorem State.setKey_V (k : Nibble) (b : Bool) : (s.setKey k b).V = s.V := rfl
@[simp] theorem State.setKey_I (k : Nibble) (b : Bool) : (s.setKey k b).I = s.I := rfl
@[simp] theorem State.setKey_pc (k : Nibble) (b : Bool) : (s.setKey k b).pc = s.pc := rfl
@[simp] theorem State.setKey_stack (k : Nibble) (b : Bool) : (s.setKey k b).stack = s.stack := rfl
@[simp] theorem State.setKey_sp (k : Nibble) (b : Bool) : (s.setKey k b).sp = s.sp := rfl
@[simp] theorem State.setKey_DT (k : Nibble) (b : Bool) : (s.setKey k b).DT = s.DT := rfl
@[simp] theorem State.setKey_ST (k : Nibble) (b : Bool) : (s.setKey k b).ST = s.ST := rfl
@[simp] theorem State.setKey_fb (k : Nibble) (b : Bool) : (s.setKey k b).fb = s.fb := rfl
@[simp] theorem State.setKey_keypad (k : Nibble) (b : Bool) : (s.setKey k b).keypad = s.keypad.set k.toNat b := rfl
@[simp] theorem State.setKey_redraw (k : Nibble) (b : Bool) : (s.setKey k b).redraw = s.redraw := rfl
@[simp] theorem State.setKey_fault (k : Nibble) (b : Bool) : (s.setKey k b).fault = s.fault := rfl
@[simp] theorem State.setKey_draws (k : Nibble) (b : Bool) : (s.setKey k b).draws = s.draws := rfl

/-! #### drawn -/

@[simp] theorem State.drawn_mem : (s.drawn).mem = s.mem := rfl
@[simp] theorem State.drawn_glyphs : (s.drawn).glyphs = s.glyphs := rfl
@[simp] theorem State.drawn_V : (s.drawn).V = s.V := rfl
@[simp] theorem State.drawn_I : (s.drawn).I = s.I := rfl
@[simp] theorem State.drawn_pc : (s.drawn).pc = s.pc := rfl
@[simp] theorem State.drawn_stack : (s.drawn).stack = s.stack := rfl
@[simp] theorem State.drawn_sp : (s.drawn).sp = s.sp := rfl
@[simp] theorem State.drawn_DT : (s.drawn).DT = s.DT := rfl
@[simp] theorem State.drawn_ST : (s.drawn).ST = s.ST := rfl
@[simp] theorem State.drawn_fb : (s.drawn).fb = s.fb := rfl
@[simp] theorem State.drawn_keypad : (s.drawn).keypad = s.keypad := rfl
@[simp] theorem State.drawn_redraw : (s.drawn).redraw = s.redraw := rfl
@[simp] theorem State.drawn_fault : (s.drawn).fault = s.fault := rfl
@[simp] theorem State.drawn_draws : (s.drawn).draws = s.draws + 1 := rfl

/-! #### raise -/

@[simp] theorem State.raise_mem (f : Fault) : (s.raise f).mem = s.mem := rfl
@[simp] theorem State.raise_glyphs (f : Fault) : (s.raise f).glyphs = s.glyphs := rfl
@[simp] theorem State.raise_V (f : Fault) : (s.raise f).V = s.V := rfl
@[simp] theorem State.raise_I (f : Fault) : (s.raise f).I = s.I := rfl
@[simp] theorem State.raise_pc (f : Fault) : (s.raise f).pc = s.pc := rfl
@[simp] theorem State.raise_stack (f : Fault) : (s.raise f).stack = s.stack := rfl
@[simp] theorem State.raise_sp (f : Fault) : (s.raise f).sp = s.sp := rfl
@[simp] theorem State.raise_DT (f : Fault) : (s.raise f).DT = s.DT := rfl
@[simp] theorem State.raise_ST (f : Fault) : (s.raise f).ST = s.ST := rfl
@[simp] theorem State.raise_fb (f : Fault) : (s.raise f).fb = s.fb := rfl
@[simp] theorem State.raise_keypad (f : Fault) : (s.raise f).keypad = s.keypad := rfl
@[simp] theorem State.raise_redraw (f : Fault) : (s.raise f).redraw = s.redraw := rfl
@[simp] theorem State.raise_fault (f : Fault) : (s.raise f).fault = some f := rfl
@[simp] theorem State.raise_draws (f : Fault) : (s.raise f).draws = s.draws := rfl

/-! ### Reads a write does not touch -/

@[simp] theorem State.setByte_reg (a : Nat) (v : Byte) (q : Nibble) : (s.setByte a v).reg q = s.reg q := rfl
@[simp] theorem State.setI_reg (v : Word) (q : Nibble) : (s.setI v).reg q = s.reg q := rfl
@[simp] theorem State.setPc_reg (v : Word) (q : Nibble) : (s.setPc v).reg q = s.reg q := rfl
@[simp] theorem State.advance_reg (k : Word) (q : Nibble) : (s.advance k).reg q = s.reg q := rfl
@[simp] theorem State.setDT_reg (v : Byte) (q : Nibble) : (s.setDT v).reg q = s.reg q := rfl
@[simp] theorem State.setST_reg (v : Byte) (q : Nibble) : (s.setST v).reg q = s.reg q := rfl
@[simp] theorem State.setRedraw_reg (b : Bool) (q : Nibble) : (s.setRedraw b).reg q = s.reg q := rfl
@[simp] theorem State.push_reg (v : Word) (q : Nibble) : (s.push v).reg q = s.reg q := rfl
@[simp] theorem State.pop_reg (q : Nibble) : (s.pop).reg q = s.reg q := rfl
@[simp] theorem State.setFb_reg (f : Framebuffer) (q : Nibble) : (s.setFb f).reg q = s.reg q := rfl
@[simp] theorem State.setKey_reg (k : Nibble) (b : Bool) (q : Nibble) : (s.setKey k b).reg q = s.reg q := rfl
@[simp] theorem State.drawn_reg (q : Nibble) : (s.drawn).reg q = s.reg q := rfl
@[simp] theorem State.raise_reg (f : Fault) (q : Nibble) : (s.raise f).reg q = s.reg q := rfl
@[simp] theorem State.setReg_byteAt (r : Nibble) (v : Byte) (p : Nat) : (s.setReg r v).byteAt p = s.byteAt p := rfl
@[simp] theorem State.setI_byteAt (v : Word) (p : Nat) : (s.setI v).byteAt p = s.byteAt p := rfl
@[simp] theorem State.setPc_byteAt (v : Word) (p : Nat) : (s.setPc v).byteAt p = s.byteAt p := rfl
@[simp] theorem State.advance_byteAt (k : Word) (p : Nat) : (s.advance k).byteAt p = s.byteAt p := rfl
@[simp] theorem State.setDT_byteAt (v : Byte) (p : Nat) : (s.setDT v).byteAt p = s.byteAt p := rfl
@[simp] theorem State.setST_byteAt (v : Byte) (p : Nat) : (s.setST v).byteAt p = s.byteAt p := rfl
@[simp] theorem State.setRedraw_byteAt (b : Bool) (p : Nat) : (s.setRedraw b).byteAt p = s.byteAt p := rfl
@[simp] theorem State.push_byteAt (v : Word) (p : Nat) : (s.push v).byteAt p = s.byteAt p := rfl
@[simp] theorem State.pop_byteAt (p : Nat) : (s.pop).byteAt p = s.byteAt p := rfl
@[simp] theorem State.setFb_byteAt (f : Framebuffer) (p : Nat) : (s.setFb f).byteAt p = s.byteAt p := rfl
@[simp] theorem State.setKey_byteAt (k : Nibble) (b : Bool) (p : Nat) : (s.setKey k b).byteAt p = s.byteAt p := rfl
@[simp] theorem State.drawn_byteAt (p : Nat) : (s.drawn).byteAt p = s.byteAt p := rfl
@[simp] theorem State.raise_byteAt (f : Fault) (p : Nat) : (s.raise f).byteAt p = s.byteAt p := rfl
@[simp] theorem State.setByte_cell (a : Nat) (v : Byte) (c : Nat) : (s.setByte a v).cell c = s.cell c := rfl
@[simp] theorem State.setReg_cell (r : Nibble) (v : Byte) (c : Nat) : (s.setReg r v).cell c = s.cell c := rfl
@[simp] theorem State.setI_cell (v : Word) (c : Nat) : (s.setI v).cell c = s.cell c := rfl
@[simp] theorem State.setPc_cell (v : Word) (c : Nat) : (s.setPc v).cell c = s.cell c := rfl
@[simp] theorem State.advance_cell (k : Word) (c : Nat) : (s.advance k).cell c = s.cell c := rfl
@[simp] theorem State.setDT_cell (v : Byte) (c : Nat) : (s.setDT v).cell c = s.cell c := rfl
@[simp] theorem State.setST_cell (v : Byte) (c : Nat) : (s.setST v).cell c = s.cell c := rfl
@[simp] theorem State.setRedraw_cell (b : Bool) (c : Nat) : (s.setRedraw b).cell c = s.cell c := rfl
@[simp] theorem State.push_cell (v : Word) (c : Nat) : (s.push v).cell c = s.cell c := rfl
@[simp] theorem State.pop_cell (c : Nat) : (s.pop).cell c = s.cell c := rfl
@[simp] theorem State.setKey_cell (k : Nibble) (b : Bool) (c : Nat) : (s.setKey k b).cell c = s.cell c := rfl
@[simp] theorem State.drawn_cell (c : Nat) : (s.drawn).cell c = s.cell c := rfl
@[simp] theorem State.raise_cell (f : Fault) (c : Nat) : (s.raise f).cell c = s.cell c := rfl
@[simp] theorem State.setByte_key (a : Nat) (v : Byte) (q : Nibble) : (s.setByte a v).key q = s.key q := rfl
@[simp] theorem State.setReg_key (r : Nibble) (v : Byte) (q : Nibble) : (s.setReg r v).key q = s.key q := rfl
@[simp] theorem State.setI_key (v : Word) (q : Nibble) : (s.setI v).key q = s.key q := rfl
@[simp] theorem State.setPc_key (v : Word) (q : Nibble) : (s.setPc v).key q = s.key q := rfl
@[simp] theorem State.advance_key (k : Word) (q : Nibble) : (s.advance k).key q = s.key q := rfl
@[simp] theorem State.setDT_key (v : Byte) (q : Nibble) : (s.setDT v).key q = s.key q := rfl
@[simp] theorem State.setST_key (v : Byte) (q : Nibble) : (s.setST v).key q = s.key q := rfl
@[simp] theorem State.setRedraw_key (b : Bool) (q : Nibble) : (s.setRedraw b).key q = s.key q := rfl
@[simp] theorem State.push_key (v : Word) (q : Nibble) : (s.push v).key q = s.key q := rfl
@[simp] theorem State.pop_key (q : Nibble) : (s.pop).key q = s.key q := rfl
@[simp] theorem State.setFb_key (f : Framebuffer) (q : Nibble) : (s.setFb f).key q = s.key q := rfl
@[simp] theorem State.drawn_key (q : Nibble) : (s.drawn).key q = s.key q := rfl
@[simp] theorem State.raise_key (f : Fault) (q : Nibble) : (s.raise f).key q = s.key q := rfl

/-! ### Reads after the write of the same thing -/

@[simp] theorem State.setReg_reg (r : Nibble) (v : Byte) (q : Nibble) :
    (s.setReg r v).reg q = if q = r then v else s.reg q := by
  have h : r.toNat = q.toNat ↔ q = r := by rw [BitVec.toNat_inj]; exact eq_comm
  simp only [State.reg, State.setReg, Vector.getElem_set, h]

@[simp] theorem State.setKey_key (k : Nibble) (b : Bool) (q : Nibble) :
    (s.setKey k b).key q = if q = k then b else s.key q := by
  have h : k.toNat = q.toNat ↔ q = k := by rw [BitVec.toNat_inj]; exact eq_comm
  simp only [State.key, State.setKey, Vector.getElem_set, h]

@[simp] theorem State.setFb_cell (f : Framebuffer) (c : Nat) : (s.setFb f).cell c = fbCell f c := rfl

/-- CALL's push, read back by RET's `stack[sp]` (R121, R123). -/
@[simp] theorem State.push_top (v : Word) : (s.push v).top = v := by
  simp [State.top, State.push]

/-- A write of a result and then a flag: the flag is what VF holds (R151). -/
@[simp] theorem State.setResultFlag_reg (x : Nibble) (v f : Byte) (q : Nibble) :
    (s.setResultFlag x v f).reg q = if q = vf then f else if q = x then v else s.reg q := by
  simp [State.setResultFlag]

end Sys2Proof.Machine
end

