-- ==== Sys2Proof/Laws/Memory.lean ====
section
/-!
SUPPORT. Memory: a read after a write, and the canonical form, which every memory operation keeps (20_memory.md R52,
R53, R59).
-/
namespace Sys2Proof.Machine

theorem Memory.lookup_insert (c : Host.Cell) (m : List Host.Cell) (h : ∀ d ∈ m, d.1 ≠ c.1) (a : Nat) :
    Memory.lookup (Memory.insert c m) a = if a = c.1 then some c.2 else Memory.lookup m a := by
  induction m with
  | nil => simp [Memory.insert, Memory.lookup, eq_comm]
  | cons d m ih =>
    have hd : d.1 ≠ c.1 := h d (by simp)
    have hm : ∀ e ∈ m, e.1 ≠ c.1 := fun e he => h e (by simp [he])
    unfold Memory.insert
    split
    · simp [Memory.lookup, eq_comm]
    · simp only [Memory.lookup, ih hm]
      split_ifs <;> simp_all

theorem Memory.lookup_filter (m : List Host.Cell) (b a : Nat) :
    Memory.lookup (m.filter (fun c => c.1 ≠ b)) a = if a = b then none else Memory.lookup m a := by
  induction m with
  | nil => simp [Memory.lookup]
  | cons d m ih =>
    simp only [List.filter_cons]
    by_cases hd : d.1 = b <;> by_cases ha : a = b <;> simp_all [Memory.lookup]
    intro h; exact absurd h.symm ha

theorem Memory.mem_filter_ne {m : List Host.Cell} {b : Nat} {d : Host.Cell}
    (h : d ∈ m.filter (fun c => c.1 ≠ b)) : d ∈ m ∧ d.1 ≠ b := by
  simpa using h

/-- A byte read from written memory: the written byte at its address, what was there before elsewhere. -/
theorem Memory.read_put (g : GlyphTable) (m : List Host.Cell) (a b : Nat) (v : Byte) :
    (Memory.lookup (Memory.put g m a v) b).getD (unlistedByte g b) =
      if b = a then v else (Memory.lookup m b).getD (unlistedByte g b) := by
  unfold Memory.put
  split
  · next hv => rw [Memory.lookup_filter]; split_ifs with h <;> simp_all
  · rw [Memory.lookup_insert _ _ (fun d hd => (Memory.mem_filter_ne hd).2), Memory.lookup_filter]
    split_ifs <;> simp_all

/-- The law of memory (R59): a read returns the last value written at its address, and no other address changes. -/
@[simp] theorem State.setByte_byteAt (s : State) (a : Nat) (v : Byte) (b : Nat) :
    (s.setByte a v).byteAt b = if b = a then v else s.byteAt b :=
  Memory.read_put s.glyphs s.mem a b v

theorem Memory.mem_insert {c d : Host.Cell} {m : List Host.Cell} (h : d ∈ Memory.insert c m) : d = c ∨ d ∈ m := by
  induction m with
  | nil => simpa [Memory.insert] using h
  | cons e m ih =>
    unfold Memory.insert at h
    split at h
    · simpa using h
    · rcases List.mem_cons.1 h with rfl | h
      · simp
      · rcases ih h with rfl | h <;> simp [*]

theorem Memory.pairwise_insert {c : Host.Cell} {m : List Host.Cell} (hs : m.Pairwise (fun c d => c.1 < d.1))
    (h : ∀ d ∈ m, d.1 ≠ c.1) : (Memory.insert c m).Pairwise (fun c d => c.1 < d.1) := by
  induction m with
  | nil => simp [Memory.insert]
  | cons e m ih =>
    have he : e.1 ≠ c.1 := h e (by simp)
    rw [List.pairwise_cons] at hs
    unfold Memory.insert
    split
    · next hlt =>
      refine List.pairwise_cons.2 ⟨fun d hd => ?_, List.pairwise_cons.2 hs⟩
      rcases List.mem_cons.1 hd with rfl | hd
      · exact hlt
      · exact lt_trans hlt (hs.1 d hd)
    · refine List.pairwise_cons.2 ⟨fun d hd => ?_, ih hs.2 (fun d hd => h d (by simp [hd]))⟩
      rcases Memory.mem_insert hd with rfl | hd
      · omega
      · exact hs.1 d hd

/-- Every entry of written memory is the new one or an old one. -/
theorem Memory.mem_put {g : GlyphTable} {m : List Host.Cell} {a : Nat} {v : Byte} {d : Host.Cell}
    (h : d ∈ Memory.put g m a v) : d = (a, v) ∨ d ∈ m := by
  unfold Memory.put at h
  split at h
  · exact .inr (Memory.mem_filter_ne h).1
  · rcases Memory.mem_insert h with h | h
    · exact .inl h
    · exact .inr (Memory.mem_filter_ne h).1

/-- A write inside the address space keeps the canonical form. -/
theorem Memory.put_wf {g : GlyphTable} {m : List Host.Cell} {a : Nat} {v : Byte} (ha : a < Config.memSize)
    (h : Memory.wf g m) : Memory.wf g (Memory.put g m a v) := by
  have hf : (m.filter (fun c => c.1 ≠ a)).Pairwise (fun c d => c.1 < d.1) := h.1.filter _
  unfold Memory.put
  split
  · exact ⟨hf, fun d hd => h.2 d (Memory.mem_filter_ne hd).1⟩
  · next hv =>
    refine ⟨Memory.pairwise_insert hf fun d hd => (Memory.mem_filter_ne hd).2, fun d hd => ?_⟩
    rcases Memory.mem_insert hd with rfl | hd
    · exact ⟨ha, hv⟩
    · exact h.2 d (Memory.mem_filter_ne hd).1

/-- The memory of the reset state is canonical. -/
theorem State.reset_mem_wf : Memory.wf State.reset.glyphs State.reset.mem := by
  simp [State.reset, Memory.wf]

theorem State.setByte_wf {s : State} {a : Nat} {v : Byte} (ha : a < Config.memSize) (h : Memory.wf s.glyphs s.mem) :
    Memory.wf (s.setByte a v).glyphs (s.setByte a v).mem :=
  Memory.put_wf ha h

theorem State.setByte_reserved {s : State} {a : Nat} {v : Byte} (ha : 0x200 ≤ a) (h : ∀ c ∈ s.mem, 0x200 ≤ c.1) :
    ∀ c ∈ (s.setByte a v).mem, 0x200 ≤ c.1 := by
  intro c hc
  rcases Memory.mem_put hc with rfl | hc
  · exact ha
  · exact h c hc

/-! ### Several bytes -/

/-- Everything a copy of bytes does: `bs` from address `a` on, nothing else. -/
theorem State.setBytes_byteAt (bs : List Byte) (s : State) (a b : Nat) :
    (s.setBytes a bs).byteAt b = if h : a ≤ b ∧ b < a + bs.length then bs[b - a]'(by omega) else s.byteAt b := by
  induction bs generalizing s a with
  | nil =>
    have : ¬(a ≤ b ∧ b < a + ([] : List Byte).length) := by simp only [List.length_nil]; omega
    rw [dif_neg this]; rfl
  | cons c bs ih =>
    simp only [State.setBytes, ih, State.setByte_byteAt, List.length_cons]
    by_cases h1 : b = a
    · subst h1
      simp
    · by_cases h2 : a + 1 ≤ b ∧ b < a + 1 + bs.length
      · have h3 : a ≤ b ∧ b < a + (bs.length + 1) := by omega
        rw [dif_pos h2, dif_pos h3]
        have : b - a = (b - (a + 1)) + 1 := by omega
        simp [this]
      · have h3 : ¬(a ≤ b ∧ b < a + (bs.length + 1)) := by omega
        rw [dif_neg h2, dif_neg h3, if_neg h1]

/-- A copy of bytes changes memory only. -/
theorem State.setBytes_eq (bs : List Byte) (s : State) (a : Nat) :
    s.setBytes a bs = { s with mem := (s.setBytes a bs).mem } := by
  induction bs generalizing s a with
  | nil => rfl
  | cons c bs ih =>
    rw [State.setBytes, ih]
    rfl

theorem State.setBytes_wf (bs : List Byte) {s : State} {a : Nat} (ha : a + bs.length ≤ Config.memSize)
    (h : Memory.wf s.glyphs s.mem) : Memory.wf (s.setBytes a bs).glyphs (s.setBytes a bs).mem := by
  induction bs generalizing s a with
  | nil => exact h
  | cons c bs ih =>
    rw [List.length_cons] at ha
    exact ih (by omega) (State.setByte_wf (by omega) h)

theorem State.setBytes_reserved (bs : List Byte) {s : State} {a : Nat} (ha : 0x200 ≤ a)
    (h : ∀ c ∈ s.mem, 0x200 ≤ c.1) : ∀ c ∈ (s.setBytes a bs).mem, 0x200 ≤ c.1 := by
  induction bs generalizing s a with
  | nil => exact h
  | cons c bs ih => exact ih (by omega) (State.setByte_reserved ha h)

end Sys2Proof.Machine
end

