-- ==== Sys2Proof/Laws/Access.lean ====
section
/-!
SUPPORT. The check phase and the two register-range loops: one lemma each for everything they do (20_memory.md R52,
R53; 44_index_memory.md R184, R185; 60_exceptions.md R226).
-/
namespace Sys2Proof.Machine

/-! ### The check phase -/

/-- A range of reads passes, or reports its first address at 0x1000 or above (R52, R226). -/
theorem firstFault_readCheck (a n : Nat) : firstFault readCheck a n =
    if n = 0 ∨ a + n ≤ 0x1000 then none else some (.memOutOfBounds (max a 0x1000)) := by
  induction n generalizing a with
  | zero => simp [firstFault]
  | succ n ih =>
    simp only [firstFault, readCheck, Config.memSize, ih]
    by_cases h : 4096 ≤ a
    · simp [h]; omega
    · simp only [h, if_false]
      by_cases h1 : n = 0 ∨ a + 1 + n ≤ 4096
      · rw [if_pos h1, if_pos (by omega)]
      · rw [if_neg h1, if_neg (by omega)]
        have : max (a + 1) 4096 = max a 4096 := by omega
        rw [this]

/-- A range of writes passes, or reports its first address below 0x200 or at 0x1000 or above (R53, R226). -/
theorem firstFault_writeCheck (a n : Nat) : firstFault writeCheck a n =
    if n = 0 then none else if a < 0x200 then some (.reservedWrite a)
    else if a + n ≤ 0x1000 then none else some (.memOutOfBounds (max a 0x1000)) := by
  induction n generalizing a with
  | zero => simp [firstFault]
  | succ n ih =>
    simp only [firstFault, writeCheck, Config.memSize, Config.progStart, ih]
    by_cases h : 4096 ≤ a
    · have h1 : ¬ a < 0x200 := by omega
      have h2 : ¬ a + (n + 1) ≤ 0x1000 := by omega
      simp [h, h1, h2]
    · by_cases h1 : a < 512
      · simp [h, h1]
      · have h2 : ¬ a + 1 < 512 := by omega
        simp only [h, h1, h2, if_false]
        rcases Nat.eq_zero_or_pos n with rfl | hn
        · simp only [if_true]
          rw [if_neg (by omega), if_pos (by omega)]
        · rw [if_neg (by omega : ¬ n = 0), if_neg (by omega : ¬ n + 1 = 0)]
          by_cases h3 : a + 1 + n ≤ 4096
          · rw [if_pos h3, if_pos (by omega)]
          · rw [if_neg h3, if_neg (by omega)]
            have : max (a + 1) 4096 = max a 4096 := by omega
            rw [this]

theorem State.readsCheck_eq (s : State) (n : Nat) : s.readsCheck n =
    if n = 0 ∨ s.I.toNat + n ≤ 0x1000 then none else some (.memOutOfBounds (max s.I.toNat 0x1000)) :=
  firstFault_readCheck _ _

theorem State.writesCheck_eq (s : State) (n : Nat) : s.writesCheck n =
    if n = 0 then none else if s.I.toNat < 0x200 then some (.reservedWrite s.I.toNat)
    else if s.I.toNat + n ≤ 0x1000 then none else some (.memOutOfBounds (max s.I.toNat 0x1000)) :=
  firstFault_writeCheck _ _

/-- Reads that all lie in memory pass (R52). -/
theorem State.readsCheck_none {s : State} {n : Nat} (h : n = 0 ∨ s.I.toNat + n ≤ 0x1000) : s.readsCheck n = none := by
  rw [State.readsCheck_eq, if_pos h]

/-- Writes that all lie in the writable range pass (R53). -/
theorem State.writesCheck_none {s : State} {n : Nat} (h : n = 0 ∨ (0x200 ≤ s.I.toNat ∧ s.I.toNat + n ≤ 0x1000)) :
    s.writesCheck n = none := by
  rw [State.writesCheck_eq]
  split_ifs <;> first | rfl | omega

/-! ### The register loops -/

theorem nthReg_toNat {k : Nat} (h : k < 16) : (nthReg k).toNat = k := by
  simp only [nthReg, BitVec.toNat_ofNat]; omega

theorem nthReg_eq {k : Nat} (h : k < 16) (r : Nibble) : r = nthReg k ↔ r.toNat = k := by
  rw [← BitVec.toNat_inj, nthReg_toNat h]

@[simp] theorem State.storeRange_zero (s : State) : s.storeRange 0 = s := rfl

theorem State.storeRange_succ (s : State) (x : Nat) :
    s.storeRange (x + 1) = (s.storeRange x).setByte (s.addr x) (s.reg (nthReg x)) := by
  simp [State.storeRange, List.range_succ]

@[simp] theorem State.loadRange_zero (s : State) : s.loadRange 0 = s := rfl

theorem State.loadRange_succ (s : State) (x : Nat) :
    s.loadRange (x + 1) = (s.loadRange x).setReg (nthReg x) (s.byteAt (s.addr x)) := by
  simp [State.loadRange, List.range_succ]

/-- LD [I]'s stores: `V[k]` at `I + k` for `k < x`, every other byte as before (R184). -/
theorem State.storeRange_byteAt (s : State) (x a : Nat) : (s.storeRange x).byteAt a =
    if s.I.toNat ≤ a ∧ a < s.I.toNat + x then s.reg (nthReg (a - s.I.toNat)) else s.byteAt a := by
  induction x with
  | zero => rw [if_neg (by omega)]; rfl
  | succ x ih =>
    rw [State.storeRange_succ, State.setByte_byteAt, ih, State.addr]
    by_cases h : a = s.I.toNat + x
    · rw [if_pos h, if_pos (by omega)]; congr 2; omega
    · rw [if_neg h]
      by_cases h2 : s.I.toNat ≤ a ∧ a < s.I.toNat + x
      · rw [if_pos h2, if_pos (by omega)]
      · rw [if_neg h2, if_neg (by omega)]

/-- LD [I] changes memory only. -/
theorem State.storeRange_eq (s : State) (x : Nat) : s.storeRange x = { s with mem := (s.storeRange x).mem } := by
  induction x with
  | zero => rfl
  | succ x ih => rw [State.storeRange_succ, ih]; rfl

/-- LD Vx,[I]'s loads: `V[k]` from `I + k` for `k < x`, every other register as before (R185). -/
theorem State.loadRange_reg (s : State) (x : Nat) (hx : x ≤ 16) (r : Nibble) : (s.loadRange x).reg r =
    if r.toNat < x then s.byteAt (s.I.toNat + r.toNat) else s.reg r := by
  induction x with
  | zero => rw [if_neg (by omega)]; rfl
  | succ x ih =>
    rw [State.loadRange_succ, State.setReg_reg, ih (by omega), State.addr]
    by_cases h : r = nthReg x
    · have h' := (nthReg_eq (by omega) r).1 h
      rw [if_pos h, if_pos (by omega), h']
    · have h' : ¬ r.toNat = x := fun e => h ((nthReg_eq (by omega) r).2 e)
      rw [if_neg h]
      by_cases h2 : r.toNat < x
      · rw [if_pos h2, if_pos (by omega)]
      · rw [if_neg h2, if_neg (by omega)]

/-- LD Vx,[I] changes registers only. -/
theorem State.loadRange_eq (s : State) (x : Nat) : s.loadRange x = { s with V := (s.loadRange x).V } := by
  induction x with
  | zero => rfl
  | succ x ih => rw [State.loadRange_succ, ih]; rfl

theorem State.storeRange_wf {s : State} {x : Nat} (hx : s.I.toNat + x ≤ Config.memSize)
    (h : Memory.wf s.glyphs s.mem) : Memory.wf (s.storeRange x).glyphs (s.storeRange x).mem := by
  induction x with
  | zero => exact h
  | succ x ih =>
    rw [State.storeRange_succ]
    exact State.setByte_wf (by simp only [State.addr]; omega) (ih (by omega))

theorem State.storeRange_reserved {s : State} {x : Nat} (hx : 0x200 ≤ s.I.toNat) (h : ∀ c ∈ s.mem, 0x200 ≤ c.1) :
    ∀ c ∈ (s.storeRange x).mem, 0x200 ≤ c.1 := by
  induction x with
  | zero => exact h
  | succ x ih =>
    rw [State.storeRange_succ]
    exact State.setByte_reserved (by simp only [State.addr]; omega) ih

/-! ### Keys -/

/-- A key number of 16 or more is refused with the fault that carries it (R200). -/
theorem keyCheck_eq (k : Byte) : keyCheck k = if 16 ≤ k.toNat then some (.keyIndexOutOfRange k) else none := rfl

/-- A value that is a key number passes, and names that key (R76, R200). -/
theorem keyCheck_none {v : Byte} {k : Nibble} (h : v.toNat = k.toNat) : keyCheck v = none := by
  rw [keyCheck_eq, if_neg (by omega)]

theorem keyOf_of_toNat {v : Byte} {k : Nibble} (h : v.toNat = k.toNat) : keyOf v = k := by
  apply BitVec.eq_of_toNat_eq
  simp only [keyOf, BitVec.toNat_setWidth, h]
  omega

/-- The scan finds a key that is pressed (R203). -/
theorem State.firstKey_some {s : State} {k : Nibble} (h : s.firstKey = some k) : s.key k = true := by
  simpa using List.find?_some h

/-- The scan finds nothing exactly when no key is pressed (R203). -/
theorem State.firstKey_none {s : State} : s.firstKey = none ↔ ∀ k : Nibble, s.key k = false := by
  simp only [State.firstKey, List.find?_eq_none, List.mem_map, List.mem_range, Bool.not_eq_true]
  constructor
  · intro h k
    exact h k ⟨k.toNat, by omega, by simp⟩
  · rintro h k -
    exact h k

end Sys2Proof.Machine
end

