-- ==== Sys2Proof/Laws/Decode.lean ====
section
/-!
SUPPORT. Fields of words: a field read through a mask that keeps it, a field of a concatenation, and what the decoder
answers for a row of R80's table.
-/
namespace Sys2Proof

/-- A field that a mask keeps whole reads the same through the mask. -/
theorem extract_and_mask (w m : Word) (lo n : Nat) (h : m.extractLsb' lo n = BitVec.allOnes n) :
    (w &&& m).extractLsb' lo n = w.extractLsb' lo n := by
  rw [BitVec.extractLsb'_and, h, BitVec.and_allOnes]

theorem topOf_of_mask {w m v : Word} (h : w &&& m = v) (hm : topOf m = 0xF#4) : topOf w = topOf v := by
  rw [← h]; exact (extract_and_mask w m 12 4 hm).symm

theorem nOf_of_mask {w m v : Word} (h : w &&& m = v) (hm : nOf m = 0xF#4) : nOf w = nOf v := by
  rw [← h]; exact (extract_and_mask w m 0 4 hm).symm

theorem kkOf_of_mask {w m v : Word} (h : w &&& m = v) (hm : kkOf m = 0xFF#8) : kkOf w = kkOf v := by
  rw [← h]; exact (extract_and_mask w m 0 8 hm).symm

/-- The fields of a word are its bits in order. -/
theorem word_of_fields (w : Word) : topOf w ++ xOf w ++ yOf w ++ nOf w = w := by
  apply BitVec.eq_of_getLsbD_eq
  intro i hi
  simp only [topOf, xOf, yOf, nOf, BitVec.getLsbD_append, BitVec.getLsbD_extractLsb']
  interval_cases i <;> simp

/-- Two bytes in address order make their word, and a word's bytes make it again (R54). -/
theorem wordOfBytes_bytes (w : Word) : wordOfBytes (w.extractLsb' 8 8) (w.extractLsb' 0 8) = w := by
  apply BitVec.eq_of_getLsbD_eq
  intro i hi
  simp only [wordOfBytes, BitVec.getLsbD_append, BitVec.getLsbD_extractLsb']
  interval_cases i <;> simp

/-- The big-endian word as a number (R71). -/
theorem wordOfBytes_eq (hi lo : Byte) : wordOfBytes hi lo = BitVec.ofNat 16 (hi.toNat * 256 + lo.toNat) := by
  apply BitVec.eq_of_toNat_eq
  simp only [wordOfBytes, BitVec.toNat_append, BitVec.toNat_ofNat]
  have := hi.isLt
  have := lo.isLt
  rw [← Nat.shiftLeft_add_eq_or_of_lt lo.isLt, Nat.shiftLeft_eq]
  omega

/-! ### A field of a concatenation (R74) -/

theorem topOf_nnn (t : Nibble) (nnn : Addr12) : topOf (t ++ nnn) = t := by
  apply BitVec.eq_of_getLsbD_eq
  intro i hi
  simp only [topOf, BitVec.getLsbD_append, BitVec.getLsbD_extractLsb']
  interval_cases i <;> simp

theorem nnnOf_nnn (t : Nibble) (nnn : Addr12) : nnnOf (t ++ nnn) = nnn := by
  apply BitVec.eq_of_getLsbD_eq
  intro i hi
  simp only [nnnOf, BitVec.getLsbD_append, BitVec.getLsbD_extractLsb']
  interval_cases i <;> simp

theorem topOf_xkk (t x : Nibble) (kk : Byte) : topOf (t ++ x ++ kk) = t := by
  apply BitVec.eq_of_getLsbD_eq
  intro i hi
  simp only [topOf, BitVec.getLsbD_append, BitVec.getLsbD_extractLsb']
  interval_cases i <;> simp

theorem xOf_xkk (t x : Nibble) (kk : Byte) : xOf (t ++ x ++ kk) = x := by
  apply BitVec.eq_of_getLsbD_eq
  intro i hi
  simp only [xOf, BitVec.getLsbD_append, BitVec.getLsbD_extractLsb']
  interval_cases i <;> simp

theorem kkOf_xkk (t x : Nibble) (kk : Byte) : kkOf (t ++ x ++ kk) = kk := by
  apply BitVec.eq_of_getLsbD_eq
  intro i hi
  simp only [kkOf, BitVec.getLsbD_append, BitVec.getLsbD_extractLsb']
  interval_cases i <;> simp

theorem yOf_xkk (t x : Nibble) (kk : Byte) : yOf (t ++ x ++ kk) = kk.extractLsb' 4 4 := by
  apply BitVec.eq_of_getLsbD_eq
  intro i hi
  simp only [yOf, BitVec.getLsbD_append, BitVec.getLsbD_extractLsb']
  interval_cases i <;> simp

theorem nOf_xkk (t x : Nibble) (kk : Byte) : nOf (t ++ x ++ kk) = kk.extractLsb' 0 4 := by
  apply BitVec.eq_of_getLsbD_eq
  intro i hi
  simp only [nOf, BitVec.getLsbD_append, BitVec.getLsbD_extractLsb']
  interval_cases i <;> simp

theorem topOf_xyn (t x y n : Nibble) : topOf (t ++ x ++ y ++ n) = t := by
  apply BitVec.eq_of_getLsbD_eq
  intro i hi
  simp only [topOf, BitVec.getLsbD_append, BitVec.getLsbD_extractLsb']
  interval_cases i <;> simp

theorem xOf_xyn (t x y n : Nibble) : xOf (t ++ x ++ y ++ n) = x := by
  apply BitVec.eq_of_getLsbD_eq
  intro i hi
  simp only [xOf, BitVec.getLsbD_append, BitVec.getLsbD_extractLsb']
  interval_cases i <;> simp

theorem yOf_xyn (t x y n : Nibble) : yOf (t ++ x ++ y ++ n) = y := by
  apply BitVec.eq_of_getLsbD_eq
  intro i hi
  simp only [yOf, BitVec.getLsbD_append, BitVec.getLsbD_extractLsb']
  interval_cases i <;> simp

theorem nOf_xyn (t x y n : Nibble) : nOf (t ++ x ++ y ++ n) = n := by
  apply BitVec.eq_of_getLsbD_eq
  intro i hi
  simp only [nOf, BitVec.getLsbD_append, BitVec.getLsbD_extractLsb']
  interval_cases i <;> simp

/-- The low byte is the two low nibbles. -/
theorem kkOf_eq (w : Word) : kkOf w = yOf w ++ nOf w := by
  apply BitVec.eq_of_getLsbD_eq
  intro i hi
  simp only [kkOf, yOf, nOf, BitVec.getLsbD_append, BitVec.getLsbD_extractLsb']
  interval_cases i <;> simp

/-- A mask works field by field. -/
theorem and_fields (w m : Word) :
    w &&& m = (topOf w &&& topOf m) ++ (xOf w &&& xOf m) ++ (yOf w &&& yOf m) ++ (nOf w &&& nOf m) := by
  apply BitVec.eq_of_getLsbD_eq
  intro i hi
  simp only [topOf, xOf, yOf, nOf, BitVec.getLsbD_and, BitVec.getLsbD_append, BitVec.getLsbD_extractLsb']
  interval_cases i <;> simp

/-- The word of a self-jump at `p` (R251) is JP to `p` (R122). -/
theorem selfJump_fields {p : Word} (hp : p.toNat ≤ 0xFFF) :
    topOf (0x1000#16 ||| p) = 0x1#4 ∧ (nnnOf (0x1000#16 ||| p)).setWidth 16 = p := by
  have hor : (0x1000#16 ||| p).toNat = 4096 + p.toNat := by
    rw [BitVec.toNat_or]
    have := Nat.two_pow_add_eq_or_of_lt (i := 12) (b := p.toNat) (by omega) 1
    simpa using this.symm
  constructor
  · apply BitVec.eq_of_toNat_eq
    simp only [topOf, BitVec.extractLsb'_toNat, hor, Nat.shiftRight_eq_div_pow]
    simp
    omega
  · apply BitVec.eq_of_toNat_eq
    simp only [nnnOf, BitVec.toNat_setWidth, BitVec.extractLsb'_toNat, hor]
    simp
    omega

/-! ### One lemma per family: what the decoder does with a word of it (R77, R78) -/

theorem decode_top0 {w : Word} (h : topOf w = 0x0#4) : decode w = decodeFamily0 w := by
  simp [decode, h]

theorem decode_top1 {w : Word} (h : topOf w = 0x1#4) : decode w = .ok (.jp (nnnOf w)) := by
  simp [decode, h]

theorem decode_top2 {w : Word} (h : topOf w = 0x2#4) : decode w = .ok (.call (nnnOf w)) := by
  simp [decode, h]

theorem decode_top3 {w : Word} (h : topOf w = 0x3#4) : decode w = .ok (.seImm (xOf w) (kkOf w)) := by
  simp [decode, h]

theorem decode_top4 {w : Word} (h : topOf w = 0x4#4) : decode w = .ok (.sneImm (xOf w) (kkOf w)) := by
  simp [decode, h]

theorem decode_top5 {w : Word} (h : topOf w = 0x5#4) : decode w = .ok (.seReg (xOf w) (yOf w)) := by
  simp [decode, h]

theorem decode_top6 {w : Word} (h : topOf w = 0x6#4) : decode w = .ok (.ldImm (xOf w) (kkOf w)) := by
  simp [decode, h]

theorem decode_top7 {w : Word} (h : topOf w = 0x7#4) : decode w = .ok (.addImm (xOf w) (kkOf w)) := by
  simp [decode, h]

theorem decode_top8 {w : Word} (h : topOf w = 0x8#4) : decode w = decodeFamily8 w := by
  simp [decode, h]

theorem decode_top9 {w : Word} (h : topOf w = 0x9#4) : decode w = .ok (.sneReg (xOf w) (yOf w)) := by
  simp [decode, h]

theorem decode_topA {w : Word} (h : topOf w = 0xA#4) : decode w = .ok (.ldI (nnnOf w)) := by
  simp [decode, h]

theorem decode_topB {w : Word} (h : topOf w = 0xB#4) : decode w = .ok (.jpV0 (nnnOf w)) := by
  simp [decode, h]

theorem decode_topC {w : Word} (h : topOf w = 0xC#4) : decode w = .ok (.rnd (xOf w) (kkOf w)) := by
  simp [decode, h]

theorem decode_topD {w : Word} (h : topOf w = 0xD#4) : decode w = .ok (.drw (xOf w) (yOf w) (nOf w)) := by
  simp [decode, h]

theorem decode_topE {w : Word} (h : topOf w = 0xE#4) : decode w = decodeFamilyE w := by
  simp [decode, h]

theorem decode_topF {w : Word} (h : topOf w = 0xF#4) : decode w = decodeFamilyF w := by
  simp [decode, h]

/-- A nibble is one of its sixteen values. -/
theorem nibble_cases (t : Nibble) : t = 0x0#4 ∨ t = 0x1#4 ∨ t = 0x2#4 ∨ t = 0x3#4 ∨ t = 0x4#4 ∨ t = 0x5#4 ∨
    t = 0x6#4 ∨ t = 0x7#4 ∨ t = 0x8#4 ∨ t = 0x9#4 ∨ t = 0xA#4 ∨ t = 0xB#4 ∨ t = 0xC#4 ∨ t = 0xD#4 ∨
    t = 0xE#4 ∨ t = 0xF#4 := by
  revert t; decide

/-- A chain of alternatives that ends in a rejection took none of them. -/
theorem error_of_ite {c : Prop} [Decidable c] {i : Instr} {r : Except DecodeError Instr} {e : DecodeError}
    (h : (if c then Except.ok i else r) = .error e) : ¬ c ∧ r = .error e := by
  by_cases hc : c
  · rw [if_pos hc] at h; cases h
  · rw [if_neg hc] at h; exact ⟨hc, h⟩

theorem decodeFamily0_error {w : Word} {e : DecodeError} (h : decodeFamily0 w = .error e) :
    kkOf w ≠ 0xE0#8 ∧ kkOf w ≠ 0xEE#8 ∧ e = .illegalInstruction w := by
  obtain ⟨h1, h⟩ := error_of_ite h
  obtain ⟨h2, h⟩ := error_of_ite h
  cases h; exact ⟨h1, h2, rfl⟩

theorem decodeFamily8_error {w : Word} {e : DecodeError} (h : decodeFamily8 w = .error e) :
    nOf w ∈ [0x8#4, 0x9#4, 0xA#4, 0xB#4, 0xC#4, 0xD#4, 0xF#4] ∧ e = .illegalInstruction w := by
  obtain ⟨h0, h⟩ := error_of_ite h
  obtain ⟨h1, h⟩ := error_of_ite h
  obtain ⟨h2, h⟩ := error_of_ite h
  obtain ⟨h3, h⟩ := error_of_ite h
  obtain ⟨h4, h⟩ := error_of_ite h
  obtain ⟨h5, h⟩ := error_of_ite h
  obtain ⟨h6, h⟩ := error_of_ite h
  obtain ⟨h7, h⟩ := error_of_ite h
  obtain ⟨hE, h⟩ := error_of_ite h
  cases h
  refine ⟨?_, rfl⟩
  have := nibble_cases (nOf w)
  simp_all

theorem decodeFamilyE_error {w : Word} {e : DecodeError} (h : decodeFamilyE w = .error e) :
    kkOf w ≠ 0x9E#8 ∧ kkOf w ≠ 0xA1#8 ∧ e = .illegalInstruction w := by
  obtain ⟨h1, h⟩ := error_of_ite h
  obtain ⟨h2, h⟩ := error_of_ite h
  cases h; exact ⟨h1, h2, rfl⟩

theorem decodeFamilyF_error {w : Word} {e : DecodeError} (h : decodeFamilyF w = .error e) :
    kkOf w ∉ [0x07#8, 0x0A#8, 0x15#8, 0x18#8, 0x1E#8, 0x29#8, 0x33#8, 0x55#8, 0x65#8] ∧
      e = .illegalInstruction w := by
  obtain ⟨h0, h⟩ := error_of_ite h
  obtain ⟨h1, h⟩ := error_of_ite h
  obtain ⟨h2, h⟩ := error_of_ite h
  obtain ⟨h3, h⟩ := error_of_ite h
  obtain ⟨h4, h⟩ := error_of_ite h
  obtain ⟨h5, h⟩ := error_of_ite h
  obtain ⟨h6, h⟩ := error_of_ite h
  obtain ⟨h7, h⟩ := error_of_ite h
  obtain ⟨h8, h⟩ := error_of_ite h
  cases h
  exact ⟨by simp_all, rfl⟩

/-- A rejected word is rejected as itself (R82). -/
theorem decode_error {w : Word} {e : DecodeError} (h : decode w = .error e) : e = .illegalInstruction w := by
  rcases nibble_cases (topOf w) with t | t | t | t | t | t | t | t | t | t | t | t | t | t | t | t
  · rw [decode_top0 t] at h; exact (decodeFamily0_error h).2.2
  · rw [decode_top1 t] at h; cases h
  · rw [decode_top2 t] at h; cases h
  · rw [decode_top3 t] at h; cases h
  · rw [decode_top4 t] at h; cases h
  · rw [decode_top5 t] at h; cases h
  · rw [decode_top6 t] at h; cases h
  · rw [decode_top7 t] at h; cases h
  · rw [decode_top8 t] at h; exact (decodeFamily8_error h).2
  · rw [decode_top9 t] at h; cases h
  · rw [decode_topA t] at h; cases h
  · rw [decode_topB t] at h; cases h
  · rw [decode_topC t] at h; cases h
  · rw [decode_topD t] at h; cases h
  · rw [decode_topE t] at h; exact (decodeFamilyE_error h).2.2
  · rw [decode_topF t] at h; exact (decodeFamilyF_error h).2

end Sys2Proof
end

