-- ==== Sys2Proof/Laws/Sprite.lean ====
section
/-!
SUPPORT. The sprite engine: one lemma each for everything a bit, a row and a sprite do to the framebuffer and to the
collision flag (41_display.md R100, R103).
-/
namespace Sys2Proof.Machine

theorem fbIndex_lt (x y : Nat) : fbIndex x y < 2048 := by unfold fbIndex; omega

/-- The cell of column `col` of a row is its own: two columns less than 64 apart never meet (R103, corner cases). -/
theorem fbIndex_col_inj {x y i j : Nat} (hi : i < 8) (hj : j < 8) (h : fbIndex (x + i) y = fbIndex (x + j) y) :
    i = j := by unfold fbIndex at h; omega

/-- Cells of rows less than 32 apart never meet (R103, corner cases). -/
theorem fbIndex_row_ne {x x' y r q : Nat} (hr : r < 32) (hq : q < 32) (hne : r ≠ q) :
    fbIndex x (y + r) ≠ fbIndex x' (y + q) := by unfold fbIndex; omega

/-- A bit XORed into cell `c` changes that cell by the bit and no other (R103). -/
theorem fbCell_fbXor (fb : Framebuffer) {c d : Nat} (hc : c < 2048) (hd : d < 2048) (b : Bool) :
    fbCell (fbXor fb c b) d = (fbCell fb d ^^ (b && decide (d = c))) := by
  unfold fbCell fbXor
  by_cases hrow : c / 64 % 32 = d / 64 % 32
  · simp only [Vector.getElem_set, hrow, if_true, BitVec.getLsbD_xor]
    congr 1
    cases b
    · simp
    · by_cases h : d = c
      · subst h; simp [Nat.mod_lt]
      · have : c % 64 ≠ d % 64 := by omega
        simp [BitVec.getLsbD_twoPow, h, this]
  · have h : d ≠ c := by rintro rfl; exact hrow rfl
    simp [hrow, h]


/-- Cell `c` lies under a set bit of one of the first `m` columns of the sprite row `b`, at column `x0` of row `y`. -/
def colsCover (b : Byte) (x0 y m c : Nat) : Prop := ∃ col < m, fbIndex (x0 + col) y = c ∧ spriteBit b col = true

/-- Cell `c` lies under a set bit of one of the first `n` sprite rows. -/
def rowsCover (bytes : Nat → Byte) (x0 y0 n c : Nat) : Prop := ∃ row < n, colsCover (bytes row) x0 (y0 + row) 8 c

/-- `fb'` is `fb` with exactly the cells of `P` flipped. -/
def Flips (P : Nat → Prop) (fb fb' : Framebuffer) : Prop :=
  ∀ c < 2048, (P c → fbCell fb' c = !fbCell fb c) ∧ (¬ P c → fbCell fb' c = fbCell fb c)

theorem Flips.empty (P : Nat → Prop) (h : ∀ c, ¬ P c) (fb : Framebuffer) : Flips P fb fb :=
  fun c _ => ⟨fun hp => absurd hp (h c), fun _ => rfl⟩

/-- Two flips one after the other, of sets that do not meet, flip their union. -/
theorem Flips.trans {P Q R : Nat → Prop} {a b c : Framebuffer} (hP : Flips P a b) (hQ : Flips Q b c)
    (hdis : ∀ d, P d → ¬ Q d) (hR : ∀ d, R d ↔ P d ∨ Q d) : Flips R a c := by
  intro d hd
  obtain ⟨p1, p2⟩ := hP d hd
  obtain ⟨q1, q2⟩ := hQ d hd
  rw [hR d]
  by_cases hp : P d
  · have hq := hdis d hp
    exact ⟨fun _ => (q2 hq).trans (p1 hp), fun h => absurd (.inl hp) h⟩
  · refine ⟨fun h => ?_, fun h => ?_⟩
    · have hq : Q d := h.resolve_left hp
      rw [q1 hq, p2 hp]
    · have hq : ¬ Q d := fun hq => h (.inr hq)
      rw [q2 hq, p2 hp]

theorem flips_drawBit (k : Canvas) {c : Nat} (hc : c < 2048) (bit : Bool) :
    Flips (fun d => c = d ∧ bit = true) k.fb (drawBit k c bit).fb := by
  intro d hd
  simp only [drawBit, fbCell_fbXor k.fb hc hd]
  refine ⟨?_, fun h => ?_⟩
  · rintro ⟨rfl, rfl⟩; simp
  · by_cases hdc : d = c
    · have : bit = false := by simpa [hdc] using h
      simp [this]
    · simp [hdc]

/-- What the first `m` columns of a row do. -/
theorem drawCols_spec (b : Byte) (x0 y : Nat) (k : Canvas) (m : Nat) (hm : m ≤ 8) :
    let k' := (List.range m).foldl (fun k col => drawBit k (fbIndex (x0 + col) y) (spriteBit b col)) k
    Flips (colsCover b x0 y m) k.fb k'.fb ∧
    (k'.collision = true ↔ k.collision = true ∨ ∃ c < 2048, colsCover b x0 y m c ∧ fbCell k.fb c = true) := by
  induction m with
  | zero => exact ⟨Flips.empty _ (by simp [colsCover]) _, by simp [colsCover]⟩
  | succ m ih =>
    obtain ⟨ih1, ih2⟩ := ih (by omega)
    simp only [List.range_succ, List.foldl_append, List.foldl_cons, List.foldl_nil]
    generalize (List.range m).foldl _ k = k' at ih1 ih2 ⊢
    have hnot : ¬ colsCover b x0 y m (fbIndex (x0 + m) y) := by
      rintro ⟨col, hlt, he, -⟩
      exact absurd (fbIndex_col_inj (by omega) (by omega) he) (by omega)
    have hR : ∀ d, colsCover b x0 y (m + 1) d ↔
        colsCover b x0 y m d ∨ (fbIndex (x0 + m) y = d ∧ spriteBit b m = true) := by
      intro d
      constructor
      · rintro ⟨col, hlt, h⟩
        rcases Nat.lt_succ_iff_lt_or_eq.1 hlt with hlt | rfl
        · exact .inl ⟨col, hlt, h⟩
        · exact .inr h
      · rintro (⟨col, hlt, h⟩ | h)
        · exact ⟨col, by omega, h⟩
        · exact ⟨m, by omega, h⟩
    refine ⟨ih1.trans (flips_drawBit k' (fbIndex_lt _ _) _) ?_ hR, ?_⟩
    · rintro d hd ⟨rfl, -⟩; exact hnot hd
    · have hfresh := (ih1 _ (fbIndex_lt (x0 + m) y)).2 hnot
      simp only [drawBit, Bool.or_eq_true, Bool.and_eq_true, hfresh, ih2, or_assoc, hR]
      refine or_congr_right ⟨?_, ?_⟩
      · rintro (⟨c, hc, h, hl⟩ | ⟨hb, hl⟩)
        · exact ⟨c, hc, .inl h, hl⟩
        · exact ⟨_, fbIndex_lt _ _, .inr ⟨rfl, hb⟩, hl⟩
      · rintro ⟨c, hc, h | ⟨rfl, hb⟩, hl⟩
        · exact .inl ⟨c, hc, h, hl⟩
        · exact .inr ⟨hb, hl⟩

/-- Everything a sprite row does (R103's inner loop). -/
theorem drawRow_spec (k : Canvas) (b : Byte) (x0 y : Nat) :
    Flips (colsCover b x0 y 8) k.fb (drawRow k b x0 y).fb ∧
    ((drawRow k b x0 y).collision = true ↔
      k.collision = true ∨ ∃ c < 2048, colsCover b x0 y 8 c ∧ fbCell k.fb c = true) :=
  drawCols_spec b x0 y k 8 (le_refl 8)

/-- Everything a sprite of at most 32 rows does (R103): each cell under a set bit is flipped, no other changes, and
the collision flag says whether one of them was lit before. -/
theorem drawRows_spec (k : Canvas) (bytes : Nat → Byte) (x0 y0 n : Nat) (hn : n ≤ 32) :
    Flips (rowsCover bytes x0 y0 n) k.fb (drawRows k bytes x0 y0 n).fb ∧
    ((drawRows k bytes x0 y0 n).collision = true ↔
      k.collision = true ∨ ∃ c < 2048, rowsCover bytes x0 y0 n c ∧ fbCell k.fb c = true) := by
  induction n with
  | zero => exact ⟨Flips.empty _ (by simp [rowsCover]) _, by simp [rowsCover, drawRows]⟩
  | succ n ih =>
    obtain ⟨ih1, ih2⟩ := ih (by omega)
    have hstep : drawRows k bytes x0 y0 (n + 1) = drawRow (drawRows k bytes x0 y0 n) (bytes n) x0 (y0 + n) := by
      simp [drawRows, List.range_succ]
    obtain ⟨h1, h2⟩ := drawRow_spec (drawRows k bytes x0 y0 n) (bytes n) x0 (y0 + n)
    have hdis : ∀ d, rowsCover bytes x0 y0 n d → ¬ colsCover (bytes n) x0 (y0 + n) 8 d := by
      rintro d ⟨row, hlt, col, -, he, -⟩ ⟨col', -, he', -⟩
      exact fbIndex_row_ne (by omega) (by omega) (by omega) (he.trans he'.symm)
    have hR : ∀ d, rowsCover bytes x0 y0 (n + 1) d ↔
        rowsCover bytes x0 y0 n d ∨ colsCover (bytes n) x0 (y0 + n) 8 d := by
      intro d
      constructor
      · rintro ⟨row, hlt, h⟩
        rcases Nat.lt_succ_iff_lt_or_eq.1 hlt with hlt | rfl
        · exact .inl ⟨row, hlt, h⟩
        · exact .inr h
      · rintro (⟨row, hlt, h⟩ | h)
        · exact ⟨row, by omega, h⟩
        · exact ⟨n, by omega, h⟩
    rw [hstep]
    refine ⟨ih1.trans h1 hdis hR, ?_⟩
    rw [h2, ih2, or_assoc]
    refine or_congr_right ⟨?_, ?_⟩
    · rintro (⟨c, hc, h, hl⟩ | ⟨c, hc, h, hl⟩)
      · exact ⟨c, hc, (hR c).2 (.inl h), hl⟩
      · refine ⟨c, hc, (hR c).2 (.inr h), ?_⟩
        rwa [(ih1 c hc).2 fun hr => hdis c hr h] at hl
    · rintro ⟨c, hc, h, hl⟩
      rcases (hR c).1 h with h | h
      · exact .inl ⟨c, hc, h, hl⟩
      · exact .inr ⟨c, hc, h, by rwa [(ih1 c hc).2 fun hr => hdis c hr h]⟩

end Sys2Proof.Machine
end

