-- ==== Sys2Proof/Laws/Exec.lean ====
section
/-!
SUPPORT. What `exec` and `step` can do, said once: every instruction is a check, made first, and an effect (R11,
R225); a step either takes a fault or runs the decoded instruction (R72, R226).
-/
namespace Sys2Proof.Machine

theorem guarded_none (s u : State) : guarded none s u = .next u := rfl

theorem guarded_some (f : Fault) (s u : State) : guarded (some f) s u = .next (s.raise f) := rfl

/-- Everything a guarded effect can do. -/
theorem guarded_cases {c : Option Fault} {s u t : State} (h : guarded c s u = .next t) :
    (∃ f, c = some f ∧ t = s.raise f) ∨ (c = none ∧ t = u) := by
  cases c with
  | none => exact .inr ⟨rfl, by simpa [guarded_none] using h.symm⟩
  | some f => exact .inl ⟨f, rfl, by simpa [guarded_some] using h.symm⟩

/-- The checks an instruction makes before it writes (R221, step 4 of R226). -/
def checkOf (i : Instr) (s : State) : Option Fault :=
  match i with
  | .ret => if s.sp = 0 then some (.stackUnderflow s.pc) else none
  | .call _ => if s.sp.val = Config.spLast then some (.stackOverflow s.pc) else none
  | .drw _ _ n => s.readsCheck n.toNat
  | .skp x | .sknp x => keyCheck (s.reg x)
  | .ldB _ => s.writesCheck 3
  | .storeRegs x => s.writesCheck x.toNat
  | .loadRegs x => s.readsCheck x.toNat
  | _ => none

/-- The state an instruction leaves when its checks pass. -/
def effectOf (i : Instr) (s : State) : State :=
  match i with
  | .cls => ((s.setFb fbClear).setRedraw true).advance 2#16
  | .ret => (s.setPc (s.top + 2#16)).pop
  | .jp nnn => s.setPc (zext16 nnn)
  | .call nnn => (s.push s.pc).setPc (zext16 nnn)
  | .seImm x kk => s.skipIf (decide (s.reg x = kk))
  | .sneImm x kk => s.skipIf (decide (s.reg x ≠ kk))
  | .seReg x y => s.skipIf (decide (s.reg x = s.reg y))
  | .ldImm x kk => (s.setReg x kk).advance 2#16
  | .addImm x kk => (s.setReg x (s.reg x + kk)).advance 2#16
  | .ldReg x y => (s.setReg x (s.reg y)).advance 2#16
  | .orReg x y => (s.setReg x (s.reg x ||| s.reg y)).advance 2#16
  | .andReg x y => (s.setReg x (s.reg x &&& s.reg y)).advance 2#16
  | .xorReg x y => (s.setReg x (s.reg x ^^^ s.reg y)).advance 2#16
  | .addReg x y => (s.setResultFlag x (s.reg x + s.reg y) (carry (s.reg x) (s.reg y))).advance 2#16
  | .subReg x y => (s.setResultFlag x (s.reg x - s.reg y) (notBorrow (s.reg x) (s.reg y))).advance 2#16
  | .shrReg x y => (s.setResultFlag x (s.reg y >>> 1) (lowBit (s.reg y))).advance 2#16
  | .subnReg x y => (s.setResultFlag x (s.reg y - s.reg x) (notBorrow (s.reg y) (s.reg x))).advance 2#16
  | .shlReg x y => (s.setResultFlag x (s.reg y <<< 1) (highBit (s.reg y))).advance 2#16
  | .sneReg x y => s.skipIf (decide (s.reg x ≠ s.reg y))
  | .ldI nnn => (s.setI (zext16 nnn)).advance 2#16
  | .jpV0 nnn => s.setPc (zext16 nnn + wide (s.reg 0#4) + 2#16)
  | .rnd x kk => (s.drawn.setReg x (s.randomByte &&& kk)).advance 2#16
  | .drw x y n =>
    (((s.setFb (s.sprite x y n).fb).setReg vf (boolToByte (s.sprite x y n).collision)).setRedraw true).advance 2#16
  | .skp x => s.skipIf (s.key (keyOf (s.reg x)))
  | .sknp x =>
    if s.key (keyOf (s.reg x)) then (s.setKey (keyOf (s.reg x)) false).advance 2#16 else s.advance 4#16
  | .ldVxDT x => (s.setReg x s.DT).advance 2#16
  | .ldVxK x =>
    match s.firstKey with
    | some k => (s.setReg x (boolToByte (s.key k))).advance 2#16
    | none => s
  | .ldDTVx x => (s.setDT (s.reg x)).advance 2#16
  | .ldSTVx x => (s.setST (s.reg x)).advance 2#16
  | .addI x => (s.setI (s.I + wide (s.reg x))).advance 2#16
  | .ldF x => (s.setI (wide (s.reg x) * 5#16)).advance 2#16
  | .ldB x =>
    (((s.setByte (s.addr 0) (s.reg x / 100#8)).setByte (s.addr 1) (s.reg x / 10#8 % 10#8)).setByte
      (s.addr 2) (s.reg x % 10#8)).advance 2#16
  | .storeRegs x => (s.storeRange x.toNat).advance 2#16
  | .loadRegs x => (s.loadRange x.toNat).advance 2#16

/-- Every instruction is its check and its effect: an instruction never stops the machine by itself. -/
theorem exec_eq (i : Instr) (s : State) : exec i s = guarded (checkOf i s) s (effectOf i s) := by
  cases i with
  | ldVxK x => simp only [exec, execLdVxK, checkOf, effectOf]; cases s.firstKey <;> rfl
  | _ => rfl

/-- Everything an instruction can do: take the fault its check names, or have its effect. -/
theorem exec_cases {i : Instr} {s t : State} (h : exec i s = .next t) :
    (∃ f, checkOf i s = some f ∧ t = s.raise f) ∨ (checkOf i s = none ∧ t = effectOf i s) :=
  guarded_cases (exec_eq i s ▸ h)

/-- An instruction whose check passes has its effect. -/
theorem exec_of_check {i : Instr} {s : State} (h : checkOf i s = none) : exec i s = .next (effectOf i s) := by
  rw [exec_eq, h, guarded_none]

/-- An instruction whose check fails takes that fault. -/
theorem exec_of_fault {i : Instr} {s : State} {f : Fault} (h : checkOf i s = some f) :
    exec i s = .next (s.raise f) := by
  rw [exec_eq, h, guarded_some]

/-- No effect touches the fault record: only a check sets it (R224). -/
theorem effectOf_fault (i : Instr) (s : State) : (effectOf i s).fault = s.fault := by
  cases i <;> simp [effectOf, State.skipIf, State.setResultFlag]
  · split <;> simp
  · split <;> simp
  · rw [State.storeRange_eq]
  · rw [State.loadRange_eq]

/-- Inside the fetch range the advances of R87 are exact. -/
theorem pc_add_toNat {p k : Word} (h : p.toNat ≤ 0xFFE) (hk : k.toNat ≤ 4) : (p + k).toNat = p.toNat + k.toNat := by
  rw [BitVec.toNat_add]
  omega

/-- Everything a STEP can do (R72): on a running core only, it takes a fetch fault, a decode fault, or runs the
decoded instruction. -/
theorem step_cases {s t : State} (h : step s = .next t) : s.fault = none ∧
    ((fetchable s.pc = false ∧ t = s.raise (.pcOutOfBounds s.pc)) ∨
     (fetchable s.pc = true ∧ (∃ e, decode s.fetchWord = .error e) ∧ t = s.raise (.illegalInstruction s.fetchWord)) ∨
     (fetchable s.pc = true ∧ ∃ i, decode s.fetchWord = .ok i ∧ exec i s = .next t)) := by
  unfold step at h
  cases hf : s.fault with
  | some f => rw [hf] at h; simp [haltedBy] at h
  | none =>
    rw [hf] at h
    refine ⟨rfl, ?_⟩
    by_cases hp : fetchable s.pc = true
    · simp only [hp, if_true] at h
      cases hd : decode s.fetchWord with
      | error e => rw [hd] at h; exact .inr (.inl ⟨hp, ⟨e, rfl⟩, by simpa using h.symm⟩)
      | ok i => rw [hd] at h; exact .inr (.inr ⟨hp, i, rfl, h⟩)
    · simp only [hp, Bool.false_eq_true, if_false] at h
      exact .inl ⟨by simpa using hp, by simpa using h.symm⟩

theorem step_halted {s : State} {f : Fault} (h : s.fault = some f) : step s = .fault f := by
  unfold step; rw [h]; rfl

theorem step_pcOutOfBounds {s : State} (h : s.fault = none) (hp : fetchable s.pc = false) :
    step s = .next (s.raise (.pcOutOfBounds s.pc)) := by
  unfold step; rw [h]; simp [hp]

theorem step_illegal {s : State} {e : DecodeError} (h : s.fault = none) (hp : fetchable s.pc = true)
    (hd : decode s.fetchWord = .error e) : step s = .next (s.raise (.illegalInstruction s.fetchWord)) := by
  unfold step; rw [h]; simp [hp, hd]

theorem step_decoded {s : State} {i : Instr} (h : s.fault = none) (hp : fetchable s.pc = true)
    (hd : decode s.fetchWord = .ok i) : step s = exec i s := by
  unfold step; rw [h]; simp [hp, hd]

theorem fetchable_iff (pc : Word) : fetchable pc = true ↔ 0x200 ≤ pc.toNat ∧ pc.toNat ≤ 0xFFE := by
  simp [fetchable, Config.progStart, Config.fetchLast]

end Sys2Proof.Machine
end

