-- ==== Sys2Proof/Laws/PerInstr.lean ====
section
/-!
SUPPORT. The family `EncodeRow`: the word of every instruction lies in that instruction's own row of R80's table,
whatever its operands. It ties the encoder's patterns to the mask and match columns.
-/
namespace Sys2Proof.Laws.EncodeRow

/-- A word selects the row of an instruction when its masked bits are the row's (R80); the encoder's word does. -/
def Statement (i : Instr) : Prop := encode i &&& opcodeMask i = opcodeMatch i

/-- A row that examines the top nibble alone. -/
theorem of_top {w : Word} {t : Nibble} (h : topOf w = t) : w &&& 0xF000#16 = t ++ 0#12 := by
  subst h
  apply BitVec.eq_of_getLsbD_eq
  intro i hi
  simp only [topOf, BitVec.getLsbD_and, BitVec.getLsbD_append, BitVec.getLsbD_extractLsb']
  interval_cases i <;> simp

/-- A row that examines the top nibble and the low nibble. -/
theorem of_top_low {w : Word} {t n : Nibble} (h : topOf w = t) (hn : nOf w = n) :
    w &&& 0xF00F#16 = t ++ 0#8 ++ n := by
  subst h hn
  apply BitVec.eq_of_getLsbD_eq
  intro i hi
  simp only [topOf, nOf, BitVec.getLsbD_and, BitVec.getLsbD_append, BitVec.getLsbD_extractLsb']
  interval_cases i <;> simp

/-- A row that examines the top nibble and the low byte. -/
theorem of_top_byte {w : Word} {t : Nibble} {kk : Byte} (h : topOf w = t) (hk : kkOf w = kk) :
    w &&& 0xF0FF#16 = t ++ 0#4 ++ kk := by
  subst h hk
  apply BitVec.eq_of_getLsbD_eq
  intro i hi
  simp only [topOf, kkOf, BitVec.getLsbD_and, BitVec.getLsbD_append, BitVec.getLsbD_extractLsb']
  interval_cases i <;> simp

theorem cls : Statement .cls :=
  rfl

theorem ret : Statement .ret :=
  rfl

theorem jp (nnn : Addr12) : Statement (.jp nnn) :=
  of_top (topOf_nnn ..)

theorem call (nnn : Addr12) : Statement (.call nnn) :=
  of_top (topOf_nnn ..)

theorem seImm (x : Nibble) (kk : Byte) : Statement (.seImm x kk) :=
  of_top (topOf_xkk ..)

theorem sneImm (x : Nibble) (kk : Byte) : Statement (.sneImm x kk) :=
  of_top (topOf_xkk ..)

theorem seReg (x y : Nibble) : Statement (.seReg x y) :=
  of_top (topOf_xyn ..)

theorem ldImm (x : Nibble) (kk : Byte) : Statement (.ldImm x kk) :=
  of_top (topOf_xkk ..)

theorem addImm (x : Nibble) (kk : Byte) : Statement (.addImm x kk) :=
  of_top (topOf_xkk ..)

theorem ldReg (x y : Nibble) : Statement (.ldReg x y) :=
  of_top_low (topOf_xyn ..) (nOf_xyn ..)

theorem orReg (x y : Nibble) : Statement (.orReg x y) :=
  of_top_low (topOf_xyn ..) (nOf_xyn ..)

theorem andReg (x y : Nibble) : Statement (.andReg x y) :=
  of_top_low (topOf_xyn ..) (nOf_xyn ..)

theorem xorReg (x y : Nibble) : Statement (.xorReg x y) :=
  of_top_low (topOf_xyn ..) (nOf_xyn ..)

theorem addReg (x y : Nibble) : Statement (.addReg x y) :=
  of_top_low (topOf_xyn ..) (nOf_xyn ..)

theorem subReg (x y : Nibble) : Statement (.subReg x y) :=
  of_top_low (topOf_xyn ..) (nOf_xyn ..)

theorem shrReg (x y : Nibble) : Statement (.shrReg x y) :=
  of_top_low (topOf_xyn ..) (nOf_xyn ..)

theorem subnReg (x y : Nibble) : Statement (.subnReg x y) :=
  of_top_low (topOf_xyn ..) (nOf_xyn ..)

theorem shlReg (x y : Nibble) : Statement (.shlReg x y) :=
  of_top_low (topOf_xyn ..) (nOf_xyn ..)

theorem sneReg (x y : Nibble) : Statement (.sneReg x y) :=
  of_top (topOf_xyn ..)

theorem ldI (nnn : Addr12) : Statement (.ldI nnn) :=
  of_top (topOf_nnn ..)

theorem jpV0 (nnn : Addr12) : Statement (.jpV0 nnn) :=
  of_top (topOf_nnn ..)

theorem rnd (x : Nibble) (kk : Byte) : Statement (.rnd x kk) :=
  of_top (topOf_xkk ..)

theorem drw (x y n : Nibble) : Statement (.drw x y n) :=
  of_top (topOf_xyn ..)

theorem skp (x : Nibble) : Statement (.skp x) :=
  of_top_byte (topOf_xkk ..) (kkOf_xkk ..)

theorem sknp (x : Nibble) : Statement (.sknp x) :=
  of_top_byte (topOf_xkk ..) (kkOf_xkk ..)

theorem ldVxDT (x : Nibble) : Statement (.ldVxDT x) :=
  of_top_byte (topOf_xkk ..) (kkOf_xkk ..)

theorem ldVxK (x : Nibble) : Statement (.ldVxK x) :=
  of_top_byte (topOf_xkk ..) (kkOf_xkk ..)

theorem ldDTVx (x : Nibble) : Statement (.ldDTVx x) :=
  of_top_byte (topOf_xkk ..) (kkOf_xkk ..)

theorem ldSTVx (x : Nibble) : Statement (.ldSTVx x) :=
  of_top_byte (topOf_xkk ..) (kkOf_xkk ..)

theorem addI (x : Nibble) : Statement (.addI x) :=
  of_top_byte (topOf_xkk ..) (kkOf_xkk ..)

theorem ldF (x : Nibble) : Statement (.ldF x) :=
  of_top_byte (topOf_xkk ..) (kkOf_xkk ..)

theorem ldB (x : Nibble) : Statement (.ldB x) :=
  of_top_byte (topOf_xkk ..) (kkOf_xkk ..)

theorem storeRegs (x : Nibble) : Statement (.storeRegs x) :=
  of_top_byte (topOf_xkk ..) (kkOf_xkk ..)

theorem loadRegs (x : Nibble) : Statement (.loadRegs x) :=
  of_top_byte (topOf_xkk ..) (kkOf_xkk ..)

end Sys2Proof.Laws.EncodeRow
end

