-- ==== Sys2Proof/Tests/Slice0.lean ====
section
/-!
SUPPORT. The model's own tests. Every expected value is the spec's (spec/95_test_vectors.md, by the name given there, or
worked by hand from the rule named); each test is one STEP or one event. After them, one witness for each obligation that
has hypotheses: for each clause, a state and operands that meet them all together, at the ends of its range.
-/
namespace Sys2Proof.Tests
open Sys2Proof Sys2Proof.Machine

/-- A core just reset, with word `w` at 0x200 and the given registers set. -/
def start (w : Nat) (regs : List (Nibble × Byte)) : State :=
  regs.foldl (fun s p => s.setReg p.1 p.2) (State.reset.withFetchWord 16 w)

/-- The same core with its one word at `a`, and `pc` there. -/
def startAt (a : Word) (w : Nat) : State := ({ State.reset with pc := a } : State).withFetchWord 16 w

/-- What `f` reads in the next state, if the answer is one. -/
def readAfter {α : Type} (r : Result) (f : State → α) : Option α :=
  match r with
  | .next t => some (f t)
  | .fault _ => none
  | .refused _ => none

/-! ### Well-formedness (R74, R85): each bound refuses the first number past it -/

theorem test_wellFormed_refuses_register_x_16 : ({ x := 16 } : Operands).fit = false := by decide
theorem test_wellFormed_refuses_register_y_16 : ({ y := 16 } : Operands).fit = false := by decide
theorem test_wellFormed_refuses_16_rows : ({ n := 16 } : Operands).fit = false := by decide
theorem test_wellFormed_refuses_byte_256 : ({ kk := 256 } : Operands).fit = false := by decide
theorem test_wellFormed_refuses_address_1000 : ({ nnn := 4096 } : Operands).fit = false := by decide
theorem test_wellFormed_takes_the_last_values :
    ({ x := 15, y := 15, n := 15, kk := 255, nnn := 4095 } : Operands).fit = true := by decide

/-! ### Decoding: every constructor by a word written out from R80's pattern, bit by bit -/

theorem test_decode_family_0 :
    decodeBytes [0b00000000#8, 0b11100000#8] = .ok (.cls, []) ∧
    decodeBytes [0b00000000#8, 0b11101110#8] = .ok (.ret, []) := by decide
theorem test_decode_families_1_2_A_B :
    decodeBytes [0b00010010#8, 0b00110100#8] = .ok (.jp 0x234#12, []) ∧
    decodeBytes [0b00100011#8, 0b00000001#8] = .ok (.call 0x301#12, []) ∧
    decodeBytes [0b10100001#8, 0b00100011#8] = .ok (.ldI 0x123#12, []) ∧
    decodeBytes [0b10111010#8, 0b00000001#8] = .ok (.jpV0 0xA01#12, []) := by decide
theorem test_decode_families_3_4_6_7_C :
    decodeBytes [0b00110001#8, 0b01000010#8] = .ok (.seImm 0x1#4 0x42#8, []) ∧
    decodeBytes [0b01000010#8, 0b01000011#8] = .ok (.sneImm 0x2#4 0x43#8, []) ∧
    decodeBytes [0b01101010#8, 0b01111111#8] = .ok (.ldImm 0xA#4 0x7F#8, []) ∧
    decodeBytes [0b01111111#8, 0b00000001#8] = .ok (.addImm 0xF#4 0x01#8, []) ∧
    decodeBytes [0b11000011#8, 0b00001111#8] = .ok (.rnd 0x3#4 0x0F#8, []) := by decide
theorem test_decode_families_5_9_D :
    decodeBytes [0b01010001#8, 0b00100000#8] = .ok (.seReg 0x1#4 0x2#4, []) ∧
    decodeBytes [0b10010011#8, 0b01000000#8] = .ok (.sneReg 0x3#4 0x4#4, []) ∧
    decodeBytes [0b11010001#8, 0b00101111#8] = .ok (.drw 0x1#4 0x2#4 0xF#4, []) := by decide
theorem test_decode_family_8 :
    decodeBytes [0b10000001#8, 0b00100000#8] = .ok (.ldReg 0x1#4 0x2#4, []) ∧
    decodeBytes [0b10000001#8, 0b00100001#8] = .ok (.orReg 0x1#4 0x2#4, []) ∧
    decodeBytes [0b10000001#8, 0b00100010#8] = .ok (.andReg 0x1#4 0x2#4, []) ∧
    decodeBytes [0b10000001#8, 0b00100011#8] = .ok (.xorReg 0x1#4 0x2#4, []) ∧
    decodeBytes [0b10000001#8, 0b00100100#8] = .ok (.addReg 0x1#4 0x2#4, []) ∧
    decodeBytes [0b10000001#8, 0b00100101#8] = .ok (.subReg 0x1#4 0x2#4, []) ∧
    decodeBytes [0b10000001#8, 0b00100110#8] = .ok (.shrReg 0x1#4 0x2#4, []) ∧
    decodeBytes [0b10000001#8, 0b00100111#8] = .ok (.subnReg 0x1#4 0x2#4, []) ∧
    decodeBytes [0b10000001#8, 0b00101110#8] = .ok (.shlReg 0x1#4 0x2#4, []) := by decide
theorem test_decode_family_E :
    decodeBytes [0b11100001#8, 0b10011110#8] = .ok (.skp 0x1#4, []) ∧
    decodeBytes [0b11100001#8, 0b10100001#8] = .ok (.sknp 0x1#4, []) := by decide
theorem test_decode_family_F :
    decodeBytes [0b11110001#8, 0b00000111#8] = .ok (.ldVxDT 0x1#4, []) ∧
    decodeBytes [0b11110011#8, 0b00001010#8] = .ok (.ldVxK 0x3#4, []) ∧
    decodeBytes [0b11110000#8, 0b00010101#8] = .ok (.ldDTVx 0x0#4, []) ∧
    decodeBytes [0b11110100#8, 0b00011000#8] = .ok (.ldSTVx 0x4#4, []) ∧
    decodeBytes [0b11110010#8, 0b00011110#8] = .ok (.addI 0x2#4, []) ∧
    decodeBytes [0b11110000#8, 0b00101001#8] = .ok (.ldF 0x0#4, []) ∧
    decodeBytes [0b11110000#8, 0b00110011#8] = .ok (.ldB 0x0#4, []) ∧
    decodeBytes [0b11110010#8, 0b01010101#8] = .ok (.storeRegs 0x2#4, []) ∧
    decodeBytes [0b11110011#8, 0b01100101#8] = .ok (.loadRegs 0x3#4, []) := by decide
/-- R81's ranges at their ends, and T-DEC 1-3, 6, 7, 10-12. -/
theorem test_decode_rejects_by_name :
    [0x0000#16, 0x0123#16, 0x00DF#16, 0x00E1#16, 0x00ED#16, 0x00EF#16, 0x8008#16, 0x800D#16, 0x800F#16, 0xE09D#16,
      0xE09F#16, 0xE0A0#16, 0xE0A2#16, 0xF000#16, 0xF066#16, 0xF0FF#16].all
      (fun w => decide (decode w = .error (.illegalInstruction w))) = true := by decide
theorem test_decode_short_of_bytes : decodeBytes [0x12#8] = .error .truncated := by decide
/-- The host's reading of a table row, and the placing of a word: LD VA, 0x7F. -/
theorem test_decodeTableWord : decodeTableWord 16 0x6A7F = some (.ldImm 0xA#4 0x7F#8) := by decide
theorem test_withFetchWord_lays_out_big_endian :
    ((start 0x6A7F []).byteAt 0x200, (start 0x6A7F []).byteAt 0x201) = (0x6A#8, 0x7F#8) := by decide

/-! ### Fetch (T-DEC 13 to 17) -/

theorem test_fetch_out_of_bounds :
    readAfter (step (startAt 0xFFF#16 0)) (fun t => (t.fault, t.pc)) =
      some (some (.pcOutOfBounds 0xFFF#16), 0xFFF#16) ∧
    readAfter (step { State.reset with pc := 0x1FE#16 }) State.fault = some (some (.pcOutOfBounds 0x1FE#16)) := by
  decide
theorem test_fetch_at_the_last_word :
    readAfter (step (startAt 0xFFE#16 0x1FFE)) (fun t => (t.fault, t.pc)) = some (none, 0xFFE#16) := by decide
theorem test_illegal_word_faults :
    readAfter (step (start 0x00E1 [])) (fun t => (t.fault, t.pc)) =
      some (some (.illegalInstruction 0x00E1#16), 0x200#16) := by decide
theorem test_halted_core_has_no_step :
    readAfter (step { start 0x1200 [] with fault := some (.illegalInstruction 0#16) }) State.pc = none := by decide

/-! ### Control flow (T-FLOW, W11) -/

theorem test_ret_pops :
    readAfter (step { start 0x0FEE [] with sp := 1, stack := State.reset.stack.set 1 0x300#16 })
      (fun t => (t.pc, t.sp, t.stack[1])) = some (0x302#16, 0, 0x300#16) := by decide
theorem test_ret_underflow :
    readAfter (step (start 0x00EE [])) (fun t => (t.fault, t.pc)) =
      some (some (.stackUnderflow 0x200#16), 0x200#16) := by decide
theorem test_jp : readAfter (step (start 0x1234 [])) State.pc = some 0x234#16 := by decide
theorem test_call_at_depth_14 :
    readAfter (step { start 0x2300 [] with sp := 14 }) (fun t => (t.sp, t.stack[15], t.pc)) =
      some (15, 0x200#16, 0x300#16) := by decide
theorem test_call_overflow :
    readAfter (step { start 0x2300 [] with sp := 15 }) (fun t => (t.fault, t.sp, t.pc)) =
      some (some (.stackOverflow 0x200#16), 15, 0x200#16) := by decide
theorem test_se_imm :
    readAfter (step (start 0x3142 [(1, 0x42)])) State.pc = some 0x204#16 ∧
    readAfter (step (start 0x3142 [(1, 0x43)])) State.pc = some 0x202#16 := by decide
theorem test_sne_imm :
    readAfter (step (start 0x4142 [(1, 0x42)])) State.pc = some 0x202#16 ∧
    readAfter (step (start 0x4142 [(1, 0x43)])) State.pc = some 0x204#16 := by decide
theorem test_se_reg :
    readAfter (step (start 0x5121 [(1, 4), (2, 4)])) State.pc = some 0x204#16 ∧
    readAfter (step (start 0x5120 [(1, 4), (2, 5)])) State.pc = some 0x202#16 := by decide
theorem test_sne_reg :
    readAfter (step (start 0x9121 [(1, 4), (2, 4)])) State.pc = some 0x202#16 ∧
    readAfter (step (start 0x9120 [(1, 4), (2, 5)])) State.pc = some 0x204#16 := by decide
theorem test_jp_v0_largest : readAfter (step (start 0xBFFF [(0, 0xFF)])) State.pc = some 0x1100#16 := by decide
theorem test_jp_v0_uses_v0_not_vx :
    readAfter (step (start 0xBA00 [(0, 1), (0xA, 0x50)])) State.pc = some 0xA03#16 := by decide

/-! ### Arithmetic (T-ALU, W1 to W4) -/

/-- V0, VF and `pc` after a step. -/
def v0vf (s : State) : Option (Byte × Byte × Word) := readAfter (step s) (fun t => (t.reg 0x0#4, t.reg 0xF#4, t.pc))

theorem test_ld_imm :
    readAfter (step (start 0x6A7F [])) (fun t => (t.reg 0xA#4, t.pc)) = some (0x7F#8, 0x202#16) := by decide
theorem test_add_imm_sets_no_flag : v0vf (start 0x7002 [(0, 0xFF), (0xF, 7)]) = some (1#8, 7#8, 0x202#16) := by decide
theorem test_add_imm_to_vf :
    readAfter (step (start 0x7F01 [(0xF, 0xFF)])) (fun t => t.reg 0xF#4) = some 0#8 := by decide
theorem test_ld_reg : v0vf (start 0x8010 [(1, 0x99)]) = some (0x99#8, 0#8, 0x202#16) := by decide
theorem test_or : v0vf (start 0x8011 [(0, 0xF0), (1, 0x0F), (0xF, 7)]) = some (0xFF#8, 7#8, 0x202#16) := by decide
theorem test_and : v0vf (start 0x8012 [(0, 0xF0), (1, 0x3C), (0xF, 7)]) = some (0x30#8, 7#8, 0x202#16) := by decide
theorem test_xor : v0vf (start 0x8013 [(0, 0xFF), (1, 0x0F), (0xF, 7)]) = some (0xF0#8, 7#8, 0x202#16) := by decide
theorem test_add_carry : v0vf (start 0x8014 [(0, 200), (1, 100)]) = some (44#8, 1#8, 0x202#16) := by decide
theorem test_add_flag_written_last :
    readAfter (step (start 0x8F14 [(0xF, 0xFF), (1, 1)])) (fun t => t.reg 0xF#4) = some 1#8 := by decide
theorem test_sub_borrow : v0vf (start 0x8015 [(0, 3), (1, 10)]) = some (249#8, 0#8, 0x202#16) := by decide
theorem test_sub_equal : v0vf (start 0x8015 [(0, 9), (1, 9)]) = some (0#8, 1#8, 0x202#16) := by decide
theorem test_shr_shifts_vy : v0vf (start 0x8016 [(0, 0xAA), (1, 0x05)]) = some (0x02#8, 1#8, 0x202#16) := by decide
theorem test_subn_borrow : v0vf (start 0x8017 [(0, 10), (1, 3)]) = some (0xF9#8, 0#8, 0x202#16) := by decide
theorem test_subn : v0vf (start 0x8017 [(0, 3), (1, 10)]) = some (7#8, 1#8, 0x202#16) := by decide
theorem test_shl_shifts_vy : v0vf (start 0x801E [(0, 0x11), (1, 0x81)]) = some (0x02#8, 1#8, 0x202#16) := by decide
theorem test_shl_vf_from_vf :
    readAfter (step (start 0x8FFE [(0xF, 0x40)])) (fun t => t.reg 0xF#4) = some 0#8 := by decide
/-- One draw is made (T-ALU 27); the byte itself is free, so no test names it. -/
theorem test_rnd_draws_once : readAfter (step (start 0xC000 [])) (fun t => (t.draws, t.pc)) = some (1, 0x202#16) := by
  decide

/-! ### Index register and memory (T-MEM, W5) -/

/-- The three bytes from `a` on after a step, and the fault record. -/
def bytesAfter (s : State) (a : Nat) : Option (List Byte × Option Fault) :=
  readAfter (step s) (fun t => ([t.byteAt a, t.byteAt (a + 1), t.byteAt (a + 2)], t.fault))

theorem test_ld_i : readAfter (step (start 0xA123 [])) (fun t => (t.I, t.pc)) = some (0x123#16, 0x202#16) := by decide
theorem test_add_i_wraps :
    readAfter (step ((start 0xF21E [(2, 2)]).setI 0xFFFF#16)) (fun t => (t.I, t.reg 0xF#4)) = some (1#16, 0#8) := by
  decide
theorem test_ld_f_has_no_mask : readAfter (step (start 0xF029 [(0, 0xFF)])) State.I = some 0x4FB#16 := by decide
theorem test_bcd_at_the_top :
    bytesAfter ((start 0xF033 [(0, 123)]).setI 0xFFD#16) 0xFFD = some ([1#8, 2#8, 3#8], none) := by decide
theorem test_bcd_reserved_write :
    bytesAfter ((start 0xF133 [(1, 1)]).setI 0x1FF#16) 0x1FF =
      some ([0#8, 0xF1#8, 0x33#8], some (.reservedWrite 0x1FF)) := by decide
theorem test_store_excludes_vx :
    bytesAfter ((start 0xF255 [(0, 0x77), (1, 0x78), (2, 0x79)]).setI 0x300#16) 0x300 =
      some ([0x77#8, 0x78#8, 0#8], none) := by decide
theorem test_store_past_the_end :
    bytesAfter ((start 0xF255 [(0, 0x77)]).setI 0xFFF#16) 0xFFF =
      some ([0#8, 0#8, 0#8], some (.memOutOfBounds 0x1000)) := by decide
theorem test_load_from_the_glyphs :
    readAfter (step (start 0xF265 [(2, 9)])) (fun t => (t.reg 0x0#4, t.reg 0x1#4, t.reg 0x2#4, t.I)) =
      some (0xF0#8, 0x90#8, 9#8, 0#16) := by decide
theorem test_load_of_no_register :
    readAfter (step ((start 0xF065 []).setI 0xFFFF#16)) (fun t => (t.fault, t.pc)) = some (none, 0x202#16) := by decide

/-! ### Keypad (T-KEY) -/

theorem test_skp_keeps_the_latch :
    readAfter (step ((start 0xE19E [(1, 5)]).setKey 5#4 true)) (fun t => (t.pc, t.key 5#4)) =
      some (0x204#16, true) := by decide
theorem test_skp_key_out_of_range :
    readAfter (step (start 0xE19E [(1, 16)])) State.fault = some (some (.keyIndexOutOfRange 16#8)) := by decide
theorem test_sknp_clears_the_latch :
    readAfter (step ((start 0xE1A1 [(1, 5)]).setKey 5#4 true)) (fun t => (t.pc, t.key 5#4)) =
      some (0x202#16, false) := by decide
theorem test_sknp_key_out_of_range :
    readAfter (step ((start 0xE1A1 [(1, 0xFF)]).setKey 0xF#4 true)) (fun t => (t.fault, t.key 0xF#4)) =
      some (some (.keyIndexOutOfRange 0xFF#8), true) := by decide
theorem test_ld_k_waits :
    readAfter (step (start 0xF30A [])) (fun t => (t.pc, t.reg 0x3#4)) = some (0x200#16, 0#8) := by decide
theorem test_ld_k_writes_one :
    readAfter (step ((start 0xFF0A []).setKey 0xC#4 true)) (fun t => (t.pc, t.reg 0xF#4, t.key 0xC#4)) =
      some (0x202#16, 1#8, true) := by decide

/-! ### Timers (T-TMR) -/

theorem test_ld_vx_dt :
    readAfter (step ((start 0xF107 []).setDT 0x3C#8)) (fun t => (t.reg 0x1#4, t.DT)) = some (0x3C#8, 0x3C#8) := by decide
theorem test_ld_dt_vx : readAfter (step (start 0xF015 [(0, 5)])) (fun t => (t.DT, t.ST)) = some (5#8, 0#8) := by decide
theorem test_ld_st_vx : readAfter (step (start 0xF418 [(4, 0x20)])) (fun t => (t.DT, t.ST)) = some (0#8, 0x20#8) := by
  decide
theorem test_tick_stops_at_zero :
    readAfter (tick ((State.reset.setDT 1#8).setST 0#8)) (fun t => (t.DT, t.ST)) = some (0#8, 0#8) := by decide

/-! ### Display (T-DISP, W6 to W8) -/

/-- A core about to draw the bytes `bs`, which stand at 0x300. -/
def drawing (w : Nat) (bs : List Byte) (regs : List (Nibble × Byte)) : State :=
  (start w regs |>.setBytes 0x300 bs).setI 0x300#16

theorem test_cls :
    readAfter (step ((start 0x00E0 []).setFb (Vector.replicate 32 (BitVec.allOnes 64))))
      (fun t => (t.fb.toList, t.redraw)) = some (List.replicate 32 0#64, true) := by decide
theorem test_drw_wraps_both_ways :
    readAfter (step (drawing 0xD012 [0xFF#8, 0xFF#8] [(0, 63), (1, 31)]))
      (fun t => (t.fb[31], t.fb[0], t.fb[1], t.reg 0xF#4, t.redraw)) =
      some (0x800000000000007F#64, 0x800000000000007F#64, 0#64, 0#8, true) := by decide
theorem test_drw_collision :
    readAfter (step ((drawing 0xD011 [0xFF#8] []).setFb (State.reset.fb.set 0 0xFF#64)))
      (fun t => (t.fb[0], t.reg 0xF#4)) = some (0#64, 1#8) := by decide

/-! ### Host events (T-EVT) -/

theorem test_reset_clears_a_fault :
    readAfter (deliver .reset (State.reset.raise (.romTooLarge 4000))) (fun t => (t.fault, t.pc)) =
      some (none, 0x200#16) := by decide
theorem test_load_rom :
    readAfter (deliver (.loadRom [0x12#8, 0x00#8]) State.reset) (fun t => (t.byteAt 0x200, t.byteAt 0x201)) =
      some (0x12#8, 0x00#8) := by decide
theorem test_load_rom_twice_is_out_of_order :
    bootOrderKept .off [.reset, .loadRom [], .loadRom []] = false ∧
    bootOrderKept .off [.reset, .step, .loadRom []] = false ∧ bootOrderKept .off [.step] = false := by decide
/-- The two points the spec leaves open, as the model settles them (log entries 16 and 17). -/
theorem test_load_rom_again_after_reset_and_after_other_events :
    bootOrderKept .off [.reset, .loadRom [], .step, .reset, .loadRom []] = true ∧
    bootOrderKept .off [.reset, .tick, .keySet 0#4 true, .redrawAck, .read, .loadRom []] = true := by decide

/-! ## Witnesses

One theorem for each obligation that has hypotheses, named after it; a conjunct for each clause and each end of its
range. Those without hypotheses on the state need none but for their words. -/

/-- A core at `JP 0x200` with a program byte written and a call made: a state that meets the invariant and is not the
reset state. -/
def looping : State := { start 0x1200 [(3, 9)] with sp := 1, stack := State.reset.stack.set 1 0xFFE#16 }

theorem looping_inv : looping.Inv where
  memWf := by decide
  reserved := by decide
  pcBound := by decide
  stackBound := by decide
  stackZero := by decide
  recordFits := by rintro f ⟨⟩

/-- The same for a core halted by a RET at depth 0. -/
def underflowed : State := (start 0x00EE []).raise (.stackUnderflow 0x200#16)

theorem underflowed_inv : underflowed.Inv where
  memWf := by decide
  reserved := by decide
  pcBound := by decide
  stackBound := by decide
  stackZero := by decide
  recordFits := by rintro f ⟨⟩; exact ⟨rfl, rfl⟩

theorem witness_DecodeOfEncodeIsTheInstruction :
    WellFormed (.drw 15#4 15#4 15#4) = true ∧ WellFormed (.jp 0xFFF#12) = true ∧ WellFormed (.ldImm 15#4 255#8) = true ∧
    WellFormed .cls = true := by decide
theorem witness_DecodedWordBelongsToItsRow :
    0x512F#16 &&& opcodeMask (.seReg 1#4 2#4) = opcodeMatch (.seReg 1#4 2#4) ∧
    0x512F#16 &&& opcodeMask (.seReg 3#4 4#4) = opcodeMatch (.seReg 3#4 4#4) ∧
    0x0FE0#16 &&& opcodeMask .cls = opcodeMatch .cls := by decide
/-- `pc` at both ends of the fetch range. -/
theorem witness_StepRunsTheDecodedInstruction :
    (startAt 0x200#16 0x6A7F).fault = none ∧ 0x200 ≤ (startAt 0x200#16 0x6A7F).pc.toNat ∧
    decode (BitVec.ofNat 16 (((startAt 0x200#16 0x6A7F).byteAt 0x200).toNat * 256 +
      ((startAt 0x200#16 0x6A7F).byteAt 0x201).toNat)) = .ok (.ldImm 0xA#4 0x7F#8) ∧
    (startAt 0xFFE#16 0x1FFE).fault = none ∧ (startAt 0xFFE#16 0x1FFE).pc.toNat ≤ 0xFFE ∧
    decode (BitVec.ofNat 16 (((startAt 0xFFE#16 0x1FFE).byteAt 0xFFE).toNat * 256 +
      ((startAt 0xFFE#16 0x1FFE).byteAt 0xFFF).toNat)) = .ok (.jp 0xFFE#12) := by decide
theorem witness_HaltedCoreTakesNoStepOrTick : underflowed.fault = some (.stackUnderflow 0x200#16) := rfl
/-- Both sides of both ends; the running clause at 0x200 and 0xFFE; the third clause by a jump to 0x000. -/
theorem witness_FetchOutsideItsRangeFaults :
    ((startAt 0x1FF#16 0).fault = none ∧ (startAt 0x1FF#16 0).pc.toNat < 0x200) ∧
    ((startAt 0xFFF#16 0).fault = none ∧ 0xFFE < (startAt 0xFFF#16 0).pc.toNat) ∧
    ((startAt 0x200#16 0x1200).fault = none ∧ 0x200 ≤ (startAt 0x200#16 0x1200).pc.toNat ∧
      (startAt 0x200#16 0x1200).pc.toNat ≤ 0xFFE ∧ ∃ t, step (startAt 0x200#16 0x1200) = .next t) ∧
    ((startAt 0xFFE#16 0x1200).fault = none ∧ 0x200 ≤ (startAt 0xFFE#16 0x1200).pc.toNat ∧
      (startAt 0xFFE#16 0x1200).pc.toNat ≤ 0xFFE ∧ ∃ t, step (startAt 0xFFE#16 0x1200) = .next t) ∧
    (∃ t, looping.fault = none ∧ exec (.jp 0x000#12) looping = .next t) :=
  ⟨by decide, by decide, ⟨rfl, by decide, by decide, _, rfl⟩, ⟨rfl, by decide, by decide, _, rfl⟩, _, rfl, rfl⟩
theorem witness_IllegalWordFaultsAtDecode :
    (startAt 0x200#16 0x8008).fault = none ∧ 0x200 ≤ (startAt 0x200#16 0x8008).pc.toNat ∧
    decode (BitVec.ofNat 16 (((startAt 0x200#16 0x8008).byteAt 0x200).toNat * 256 +
      ((startAt 0x200#16 0x8008).byteAt 0x201).toNat)) = .error (.illegalInstruction 0x8008#16) ∧
    (startAt 0xFFE#16 0xF0FF).fault = none ∧ (startAt 0xFFE#16 0xF0FF).pc.toNat ≤ 0xFFE ∧
    decode (BitVec.ofNat 16 (((startAt 0xFFE#16 0xF0FF).byteAt 0xFFE).toNat * 256 +
      ((startAt 0xFFE#16 0xF0FF).byteAt 0xFFF).toNat)) = .error (.illegalInstruction 0xF0FF#16) := by decide
theorem witness_EveryInstructionAnswersANextState : looping.fault = none := rfl
/-- A STEP that faults, and a LOAD_ROM that faults. -/
theorem witness_FaultsArePrecise :
    (∃ t, (start 0x00EE []).fault = none ∧ deliver .step (start 0x00EE []) = .next t ∧
      t.fault = some (.stackUnderflow 0x200#16)) ∧
    (∃ t, State.reset.fault = none ∧ deliver (.loadRom (List.replicate 3585 0#8)) State.reset = .next t ∧
      t.fault = some (.romTooLarge 3585)) :=
  ⟨⟨_, rfl, rfl, rfl⟩, State.reset.raise (.romTooLarge 3585), rfl,
    by simp only [deliver, loadRom, List.length_replicate]; rfl, rfl⟩
theorem witness_OnlyResetLeavesTheHaltedState :
    ∃ t, underflowed.fault = some (.stackUnderflow 0x200#16) ∧ deliver .reset underflowed = .next t ∧ t.fault = none :=
  ⟨_, rfl, rfl, rfl⟩
/-- A STEP that runs, one that faults, and one from a state whose stack holds 0xFFE. -/
theorem witness_StepKeepsTheInvariant :
    looping.Inv ∧ (∃ t, step looping = .next t) ∧
    (∃ t, step { looping with pc := 0x1FF#16 } = .next t ∧ t.fault = some (.pcOutOfBounds 0x1FF#16)) :=
  ⟨looping_inv, ⟨_, rfl⟩, _, rfl, rfl⟩
theorem witness_LegalSchedulesReachOnlyInvariantStates :
    bootOrderKept .off [.reset, .loadRom [0x12#8, 0x00#8], .tick, .step, .keySet 0xF#4 true, .step, .redrawAck, .read] =
      true ∧
    ∃ t, deliverAll [.reset, .loadRom [0x12#8, 0x00#8], .tick, .step, .keySet 0xF#4 true, .step, .redrawAck, .read]
      underflowed = .next t :=
  ⟨by decide, _, rfl⟩
/-- A STEP that writes at 0x200 itself, read at 0x1FF. -/
theorem witness_ReservedRegionIsNeverOverwritten :
    Event.step ≠ .reset ∧ (∃ t, deliver .step ((start 0xF055 []).setI 0x200#16) = .next t) ∧ 0x1FF < 0x200 :=
  ⟨by decide, ⟨_, rfl⟩, by decide⟩
theorem witness_InstructionsWriteOnlyTheirParts :
    (∃ t, exec (.loadRegs 15#4) looping = .next t) ∧ (∃ t, exec .ret State.reset = .next t) :=
  ⟨⟨_, rfl⟩, _, rfl⟩
/-- `pc` at both ends of the fetch range; an instruction that has its effect and one that faults. -/
theorem witness_ProgramCounterFollowsTheTable :
    (looping.Inv ∧ looping.fault = none ∧ 0x200 ≤ looping.pc.toNat ∧ looping.pc.toNat ≤ 0xFFE) ∧
    (∃ t, exec (.jpV0 0xFFF#12) looping = .next t ∧ t.fault = none) ∧
    (∃ t, exec (.ldB 0#4) looping = .next t ∧ t.fault ≠ none) ∧
    (({ looping with pc := 0xFFE#16 } : State).Inv ∧ ({ looping with pc := 0xFFE#16 } : State).fault = none ∧
      ({ looping with pc := 0xFFE#16 } : State).pc.toNat ≤ 0xFFE) :=
  ⟨⟨looping_inv, rfl, by decide, by decide⟩, ⟨_, rfl, rfl⟩, ⟨_, rfl, by decide⟩,
    ⟨by decide, by decide, by decide, by decide, by decide, by rintro f ⟨⟩⟩, rfl, by decide⟩
/-- The shallowest and the deepest CALL, and a callee that has changed registers, `I` and `pc`. -/
theorem witness_CallThenReturnComesBack :
    State.reset.sp.val < 15 ∧ ({ State.reset with sp := 14 } : State).sp.val < 15 ∧
    ∃ t, exec (.call 0x300#12) State.reset = .next t ∧
      ((t.setReg 0#4 7#8).setI 9#16 |>.setPc 0x320#16).stack = t.stack ∧
      ((t.setReg 0#4 7#8).setI 9#16 |>.setPc 0x320#16).sp = t.sp :=
  ⟨by decide, by decide, _, rfl, rfl, rfl⟩
/-- The range at both ends: from 0x200, and up to 0xFFF with fifteen registers; registers changed in between. -/
theorem witness_StoreThenLoadRestoresRegisters :
    (0x200 ≤ (State.reset.setI 0x200#16).I.toNat ∧ (State.reset.setI 0x200#16).I.toNat + (3#4).toNat ≤ 0x1000) ∧
    (0x200 ≤ (State.reset.setI 0xFF1#16).I.toNat ∧ (State.reset.setI 0xFF1#16).I.toNat + (15#4).toNat ≤ 0x1000) ∧
    ∃ t, exec (.storeRegs 3#4) (State.reset.setI 0x200#16) = .next t ∧ (t.setReg 0#4 7#8).I = t.I ∧
      ∀ a, (t.setReg 0#4 7#8).byteAt a = t.byteAt a :=
  ⟨by decide, by decide, _, rfl, rfl, fun _ => rfl⟩
/-- Parked at the first and at the last address a word can be fetched at. -/
theorem witness_ParkedCoreStaysPut : looping.Parked ∧ (startAt 0xFFE#16 0x1FFE).Parked :=
  ⟨⟨rfl, by decide, by decide, by decide⟩, rfl, by decide, by decide, by decide⟩
theorem witness_TickDecrementsBothTimers :
    looping.fault = none ∧ underflowed.fault = some (.stackUnderflow 0x200#16) := ⟨rfl, rfl⟩
theorem witness_KeySetWritesOneLatch : (0x0#4) ≠ 0xF#4 := by decide
theorem witness_OnlyTheAcknowledgementClearsRedraw :
    ∃ t, deliver .redrawAck (State.reset.setRedraw true) = .next t ∧ (State.reset.setRedraw true).redraw = true ∧
      t.redraw = false :=
  ⟨_, rfl, rfl, rfl⟩
/-- The longest program that is copied, with its last byte, and the shortest that is too long. -/
theorem witness_LoadRomCopiesTheProgram :
    (List.replicate 3584 0xAA#8).length ≤ 3584 ∧ 3583 < (List.replicate 3584 0xAA#8).length ∧
    0x200 + (List.replicate 3584 0xAA#8).length ≤ 0x1000 ∧ 3584 < (List.replicate 3585 0xAA#8).length := by
  simp only [List.length_replicate]; decide
theorem witness_ClsClearsTheScreen :
    0x00E0#16 &&& 0xF0FF#16 = 0x00E0#16 ∧ 0x0FE0#16 &&& 0xF0FF#16 = 0x00E0#16 := by decide
/-- Depths 1 and 15 return, depth 0 faults. -/
theorem witness_RetPopsTheCallStack :
    0x00EE#16 &&& 0xF0FF#16 = 0x00EE#16 ∧ 0x0FEE#16 &&& 0xF0FF#16 = 0x00EE#16 ∧
    0 < ({ State.reset with sp := 1 } : State).sp.val ∧ 0 < ({ State.reset with sp := 15 } : State).sp.val ∧
    State.reset.sp.val = 0 := by decide
theorem witness_JpJumpsToItsAddress :
    0x1000#16 &&& 0xF000#16 = 0x1000#16 ∧ 0x1FFF#16 &&& 0xF000#16 = 0x1000#16 := by decide
/-- Depths 0 and 14 call, depth 15 faults. -/
theorem witness_CallPushesItsOwnAddress :
    0x2000#16 &&& 0xF000#16 = 0x2000#16 ∧ 0x2FFF#16 &&& 0xF000#16 = 0x2000#16 ∧
    State.reset.sp.val < 15 ∧ ({ State.reset with sp := 14 } : State).sp.val < 15 ∧
    ({ State.reset with sp := 15 } : State).sp.val = 15 := by decide
theorem witness_SeImmediateSkipsIfEqual :
    0x3000#16 &&& 0xF000#16 = 0x3000#16 ∧ 0x3FFF#16 &&& 0xF000#16 = 0x3000#16 := by decide
theorem witness_SneImmediateSkipsIfNotEqual :
    0x4000#16 &&& 0xF000#16 = 0x4000#16 ∧ 0x4FFF#16 &&& 0xF000#16 = 0x4000#16 := by decide
theorem witness_SeRegisterSkipsIfEqual :
    0x5000#16 &&& 0xF000#16 = 0x5000#16 ∧ 0x5FFF#16 &&& 0xF000#16 = 0x5000#16 := by decide
theorem witness_SneRegisterSkipsIfDifferent :
    0x9000#16 &&& 0xF000#16 = 0x9000#16 ∧ 0x9FFF#16 &&& 0xF000#16 = 0x9000#16 := by decide
theorem witness_JpV0AddsV0AndTwo :
    0xB000#16 &&& 0xF000#16 = 0xB000#16 ∧ 0xBFFF#16 &&& 0xF000#16 = 0xB000#16 := by decide
theorem witness_LdImmediateLoadsTheByte :
    0x6000#16 &&& 0xF000#16 = 0x6000#16 ∧ 0x6FFF#16 &&& 0xF000#16 = 0x6000#16 ∧
    (0x0#4) ≠ 0xF#4 := by decide
theorem witness_AddImmediateWrapsWithoutFlag :
    0x7000#16 &&& 0xF000#16 = 0x7000#16 ∧ 0x7FFF#16 &&& 0xF000#16 = 0x7000#16 ∧
    (0x0#4) ≠ 0xF#4 := by decide
theorem witness_LdRegisterCopies :
    0x8000#16 &&& 0xF00F#16 = 0x8000#16 ∧ 0x8FF0#16 &&& 0xF00F#16 = 0x8000#16 ∧
    (0x0#4) ≠ 0xF#4 := by decide
theorem witness_OrCombinesBitwise :
    0x8001#16 &&& 0xF00F#16 = 0x8001#16 ∧ 0x8FF1#16 &&& 0xF00F#16 = 0x8001#16 ∧
    (0x0#4) ≠ 0xF#4 := by decide
theorem witness_AndCombinesBitwise :
    0x8002#16 &&& 0xF00F#16 = 0x8002#16 ∧ 0x8FF2#16 &&& 0xF00F#16 = 0x8002#16 ∧
    (0x0#4) ≠ 0xF#4 := by decide
theorem witness_XorCombinesBitwise :
    0x8003#16 &&& 0xF00F#16 = 0x8003#16 ∧ 0x8FF3#16 &&& 0xF00F#16 = 0x8003#16 ∧
    (0x0#4) ≠ 0xF#4 := by decide
theorem witness_AddSetsSumAndCarry :
    0x8004#16 &&& 0xF00F#16 = 0x8004#16 ∧ 0x8FF4#16 &&& 0xF00F#16 = 0x8004#16 ∧
    (0xE#4) ≠ 0xF#4 ∧ (0x0#4) ≠ 0xE#4 ∧ (0x0#4) ≠ 0xF#4 := by decide
theorem witness_SubSetsDifferenceAndNotBorrow :
    0x8005#16 &&& 0xF00F#16 = 0x8005#16 ∧ 0x8FF5#16 &&& 0xF00F#16 = 0x8005#16 ∧
    (0xE#4) ≠ 0xF#4 ∧ (0x0#4) ≠ 0xE#4 ∧ (0x0#4) ≠ 0xF#4 := by decide
theorem witness_ShrShiftsVyRight :
    0x8006#16 &&& 0xF00F#16 = 0x8006#16 ∧ 0x8FF6#16 &&& 0xF00F#16 = 0x8006#16 ∧
    (0xE#4) ≠ 0xF#4 ∧ (0x0#4) ≠ 0xE#4 ∧ (0x0#4) ≠ 0xF#4 := by decide
theorem witness_SubnSetsDifferenceAndNotBorrow :
    0x8007#16 &&& 0xF00F#16 = 0x8007#16 ∧ 0x8FF7#16 &&& 0xF00F#16 = 0x8007#16 ∧
    (0xE#4) ≠ 0xF#4 ∧ (0x0#4) ≠ 0xE#4 ∧ (0x0#4) ≠ 0xF#4 := by decide
theorem witness_ShlShiftsVyLeft :
    0x800E#16 &&& 0xF00F#16 = 0x800E#16 ∧ 0x8FFE#16 &&& 0xF00F#16 = 0x800E#16 ∧
    (0xE#4) ≠ 0xF#4 ∧ (0x0#4) ≠ 0xE#4 ∧ (0x0#4) ≠ 0xF#4 := by decide
theorem witness_LdIndexLoadsTheAddress :
    0xA000#16 &&& 0xF000#16 = 0xA000#16 ∧ 0xAFFF#16 &&& 0xF000#16 = 0xA000#16 := by decide
theorem witness_RndMasksOneFreeByte :
    0xC000#16 &&& 0xF000#16 = 0xC000#16 ∧ 0xCFFF#16 &&& 0xF000#16 = 0xC000#16 ∧
    (0x0#4) ≠ 0xF#4 := by decide
/-- A two-row sprite at the top of memory draws, one byte further it faults; `n = 0` draws with `I` anywhere; a cell under
the sprite's first bit, lit and not, and a cell under none. -/
theorem witness_DrwXorsTheSprite :
    (0xD000#16 &&& 0xF000#16 = 0xD000#16 ∧ 0xDFFF#16 &&& 0xF000#16 = 0xD000#16) ∧
    (State.reset.setI 0xFFE#16).I.toNat + (2#4).toNat ≤ 0x1000 ∧ (0#4).toNat = 0 ∧
    (0 < (2#4).toNat ∧ 0x1000 < (State.reset.setI 0xFFF#16).I.toNat + (2#4).toNat) ∧
    (drawing 0xD011 [0x80#8] []).SpriteCovers 0#4 1#4 1#4 0 ∧
    ¬ (drawing 0xD011 [0x80#8] []).SpriteCovers 0#4 1#4 1#4 1 ∧
    ((drawing 0xD011 [0x80#8] []).setFb (State.reset.fb.set 0 1#64)).cell 0 = true ∧
    ¬ (∃ c < 2048, (drawing 0xD011 [0x80#8] []).SpriteCovers 0#4 1#4 1#4 c ∧
      (drawing 0xD011 [0x80#8] []).cell c = true) := by
  refine ⟨by decide, by decide, by decide, by decide, ⟨0, by decide, 0, by decide, by decide, by decide⟩, ?_, by decide, ?_⟩
  · rintro ⟨row, hr, col, hc, h⟩
    revert row col
    decide
  · rintro ⟨c, hc, -, h⟩
    have e : (drawing 0xD011 [0x80#8] []).fb = State.reset.fb := rfl
    simp [State.cell, fbCell, e, State.reset] at h
/-- Key numbers 0 and 15 name a key, 16 and 255 do not. -/
theorem witness_SkpSkipsIfPressed :
    0xE09E#16 &&& 0xF0FF#16 = 0xE09E#16 ∧ 0xEF9E#16 &&& 0xF0FF#16 = 0xE09E#16 ∧
    (((start 0 [(1, 0)]).reg 1#4).toNat = (0x0#4).toNat ∧ ((start 0 [(1, 15)]).reg 1#4).toNat = (0xF#4).toNat) ∧
    (16 ≤ ((start 0 [(1, 16)]).reg 1#4).toNat ∧ 16 ≤ ((start 0 [(1, 255)]).reg 1#4).toNat) := by decide
/-- Key numbers 0 and 15 name a key, not pressed and pressed; 16 and 255 do not. -/
theorem witness_SknpSkipsOrClearsTheLatch :
    0xE0A1#16 &&& 0xF0FF#16 = 0xE0A1#16 ∧ 0xEFA1#16 &&& 0xF0FF#16 = 0xE0A1#16 ∧
    (((start 0 [(1, 0)]).reg 1#4).toNat = (0x0#4).toNat ∧ ((start 0 [(1, 15)]).reg 1#4).toNat = (0xF#4).toNat) ∧
    (16 ≤ ((start 0 [(1, 16)]).reg 1#4).toNat ∧ 16 ≤ ((start 0 [(1, 255)]).reg 1#4).toNat) ∧
    (start 0 [(1, 15)]).key 0xF#4 = false ∧ ((start 0 [(1, 15)]).setKey 0xF#4 true).key 0xF#4 = true ∧ (0x0#4) ≠ 0xF#4 := by decide
/-- The last key pressed, and none. -/
theorem witness_LdKeyWaitsForAKey :
    (0xF00A#16 &&& 0xF0FF#16 = 0xF00A#16 ∧ 0xFF0A#16 &&& 0xF0FF#16 = 0xF00A#16) ∧
    (∃ k : Nibble, (State.reset.setKey 0xF#4 true).key k = true) ∧ (∀ k : Nibble, State.reset.key k = false) ∧
    (0x0#4) ≠ 0xF#4 :=
  ⟨by decide, ⟨0xF#4, by decide⟩, by decide, by decide⟩
theorem witness_LdReadsTheDelayTimer :
    0xF007#16 &&& 0xF0FF#16 = 0xF007#16 ∧ 0xFF07#16 &&& 0xF0FF#16 = 0xF007#16 ∧
    (0x0#4) ≠ 0xF#4 := by decide
theorem witness_LdSetsTheDelayTimer :
    0xF015#16 &&& 0xF0FF#16 = 0xF015#16 ∧ 0xFF15#16 &&& 0xF0FF#16 = 0xF015#16 := by decide
theorem witness_LdSetsTheSoundTimer :
    0xF018#16 &&& 0xF0FF#16 = 0xF018#16 ∧ 0xFF18#16 &&& 0xF0FF#16 = 0xF018#16 := by decide
theorem witness_AddIndexWrapsAtItsWidth :
    0xF01E#16 &&& 0xF0FF#16 = 0xF01E#16 ∧ 0xFF1E#16 &&& 0xF0FF#16 = 0xF01E#16 := by decide
theorem witness_LdFontPointsAtTheGlyph :
    0xF029#16 &&& 0xF0FF#16 = 0xF029#16 ∧ 0xFF29#16 &&& 0xF0FF#16 = 0xF029#16 := by decide
/-- `I` at 0x200 and 0xFFD stores, at 0x1FF and 0xFFE faults; a byte that is not stored. -/
theorem witness_LdBcdStoresThreeDigits :
    0xF033#16 &&& 0xF0FF#16 = 0xF033#16 ∧ 0xFF33#16 &&& 0xF0FF#16 = 0xF033#16 ∧
    (0x200 ≤ (State.reset.setI 0x200#16).I.toNat ∧ (State.reset.setI 0x200#16).I.toNat + 3 ≤ 0x1000) ∧
    (0x200 ≤ (State.reset.setI 0xFFD#16).I.toNat ∧ (State.reset.setI 0xFFD#16).I.toNat + 3 ≤ 0x1000) ∧
    (State.reset.setI 0x1FF#16).I.toNat < 0x200 ∧ 0x1000 < (State.reset.setI 0xFFE#16).I.toNat + 3 ∧
    (∀ k < 3, 0x203 ≠ (State.reset.setI 0x200#16).addr k) := by decide
/-- `x = 0`; fifteen registers at 0x200 and at 0xFF1; one register at 0x1FF, fifteen at 0xFF2; the last register stored. -/
theorem witness_LdStoresRegistersBelowX :
    0xF055#16 &&& 0xF0FF#16 = 0xF055#16 ∧ 0xFF55#16 &&& 0xF0FF#16 = 0xF055#16 ∧
    (0#4).toNat = 0 ∧ (0x200 ≤ (State.reset.setI 0x200#16).I.toNat ∧ (State.reset.setI 0x200#16).I.toNat + (15#4).toNat ≤ 0x1000) ∧
    (0x200 ≤ (State.reset.setI 0xFF1#16).I.toNat ∧ (State.reset.setI 0xFF1#16).I.toNat + (15#4).toNat ≤ 0x1000) ∧
    (0 < (1#4).toNat ∧ (State.reset.setI 0x1FF#16).I.toNat < 0x200) ∧
    (0 < (15#4).toNat ∧ 0x1000 < (State.reset.setI 0xFF2#16).I.toNat + (15#4).toNat) ∧
    (14#4).toNat < (15#4).toNat ∧ (∀ k < 15, 0x20F ≠ (State.reset.setI 0x200#16).addr k) := by decide
/-- `x = 0`; fifteen registers at 0xFF1, which fit, and at 0xFF2, which do not. -/
theorem witness_LdLoadsRegistersBelowX :
    0xF065#16 &&& 0xF0FF#16 = 0xF065#16 ∧ 0xFF65#16 &&& 0xF0FF#16 = 0xF065#16 ∧
    (0#4).toNat = 0 ∧ (State.reset.setI 0xFF1#16).I.toNat + (15#4).toNat ≤ 0x1000 ∧
    (0 < (15#4).toNat ∧ 0x1000 < (State.reset.setI 0xFF2#16).I.toNat + (15#4).toNat) := by decide

end Sys2Proof.Tests
end

section
/-!
No instruction is refused (00_scope.md R12): a guarded effect always answers a next state, hence so does every
instruction, hence so does every STEP of a running core.
-/
namespace Sys2Proof.Machine

/-- A failing check is recorded in a next state (R224), and a passing one lets the effect through. -/
theorem guarded_next (c : Option Fault) (s u : State) : ∃ t, guarded c s u = .next t := by
  cases c with
  | none => exact ⟨u, guarded_none s u⟩
  | some f => exact ⟨s.raise f, guarded_some f s u⟩

theorem exec_next (i : Instr) (s : State) : ∃ t, exec i s = .next t := by
  rw [exec_eq]
  exact guarded_next (checkOf i s) s (effectOf i s)

/-- The three ways of a STEP (R72) are a fetch fault, a decode fault and the decoded instruction. -/
theorem step_next {s : State} (hrun : s.fault = none) : ∃ t, step s = .next t := by
  cases hpc : fetchable s.pc with
  | false => exact ⟨_, step_pcOutOfBounds hrun hpc⟩
  | true =>
    cases hdec : decode s.fetchWord with
    | error e => exact ⟨_, step_illegal hrun hpc hdec⟩
    | ok i =>
      rw [step_decoded hrun hpc hdec]
      exact exec_next i s

/-- Settles O10: `exec` is a check and an effect, and both of its outcomes are next states; a STEP of a running core
takes a fault or is `exec`. -/
theorem everyInstructionAnswersANextState : Obligations.EveryInstructionAnswersANextState :=
  ⟨exec_next, fun _ => step_next⟩

end Sys2Proof.Machine
end

section
/-!
The frame of an instruction (R23, R25, R27, R29, R30, R32, R33, R34, R56): one lemma per state operation, saying which
part it writes; an effect is a chain of operations, and its frame is the chain of their lemmas.
-/
namespace Sys2Proof.Machine

theorem Part.Same.refl (p : Part) (s : State) : p.Same s s := by
  cases p <;> simp [Part.Same]

theorem Part.Same.trans {p : Part} {s t u : State} (h : p.Same s t) (h' : p.Same t u) : p.Same s u := by
  cases p with
  | callStack => exact ⟨h'.1.trans h.1, h'.2.trans h.2⟩
  | regs | memory | display | keys => exact fun a => (h' a).trans (h a)
  | index | delay | sound | redrawFlag | faultRecord | drawCount | glyphTable => exact Eq.trans h' h

theorem KeepsAllBut.refl (l : List Part) (s : State) : KeepsAllBut l s s :=
  fun p _ => Part.Same.refl p s

/-- A change that writes the part `q` alone may be added to a chain of changes whose list holds `q`. -/
theorem KeepsAllBut.write {l : List Part} {s t u : State} {q : Part} (h : KeepsAllBut l s t) (hq : q ∈ l)
    (hu : ∀ p, p ≠ q → p.Same t u) : KeepsAllBut l s u :=
  fun p hp => (h p hp).trans (hu p fun e => hp (e ▸ hq))

section
variable {l : List Part} {s t : State} (h : KeepsAllBut l s t)
include h

theorem KeepsAllBut.setPc {v : Word} : KeepsAllBut l s (t.setPc v) :=
  fun p hp => (h p hp).trans (by cases p <;> simp [Part.Same])

theorem KeepsAllBut.advance {k : Word} : KeepsAllBut l s (t.advance k) :=
  fun p hp => (h p hp).trans (by cases p <;> simp [Part.Same])

theorem KeepsAllBut.setReg {r : Nibble} {v : Byte} (hl : Part.regs ∈ l := by simp [partsWritten]) :
    KeepsAllBut l s (t.setReg r v) :=
  h.write hl fun p _ => by cases p <;> simp_all [Part.Same]

theorem KeepsAllBut.setI {v : Word} (hl : Part.index ∈ l := by simp [partsWritten]) : KeepsAllBut l s (t.setI v) :=
  h.write hl fun p _ => by cases p <;> simp_all [Part.Same]

theorem KeepsAllBut.push {v : Word} (hl : Part.callStack ∈ l := by simp [partsWritten]) : KeepsAllBut l s (t.push v) :=
  h.write hl fun p _ => by cases p <;> simp_all [Part.Same]

theorem KeepsAllBut.pop (hl : Part.callStack ∈ l := by simp [partsWritten]) : KeepsAllBut l s t.pop :=
  h.write hl fun p _ => by cases p <;> simp_all [Part.Same]

theorem KeepsAllBut.setDT {v : Byte} (hl : Part.delay ∈ l := by simp [partsWritten]) : KeepsAllBut l s (t.setDT v) :=
  h.write hl fun p _ => by cases p <;> simp_all [Part.Same]

theorem KeepsAllBut.setST {v : Byte} (hl : Part.sound ∈ l := by simp [partsWritten]) : KeepsAllBut l s (t.setST v) :=
  h.write hl fun p _ => by cases p <;> simp_all [Part.Same]

theorem KeepsAllBut.setByte {a : Nat} {v : Byte} (hl : Part.memory ∈ l := by simp [partsWritten]) :
    KeepsAllBut l s (t.setByte a v) :=
  h.write hl fun p _ => by cases p <;> simp_all [Part.Same]

theorem KeepsAllBut.setFb {f : Framebuffer} (hl : Part.display ∈ l := by simp [partsWritten]) :
    KeepsAllBut l s (t.setFb f) :=
  h.write hl fun p _ => by cases p <;> simp_all [Part.Same]

theorem KeepsAllBut.setRedraw {b : Bool} (hl : Part.redrawFlag ∈ l := by simp [partsWritten]) :
    KeepsAllBut l s (t.setRedraw b) :=
  h.write hl fun p _ => by cases p <;> simp_all [Part.Same]

theorem KeepsAllBut.setKey {k : Nibble} {b : Bool} (hl : Part.keys ∈ l := by simp [partsWritten]) :
    KeepsAllBut l s (t.setKey k b) :=
  h.write hl fun p _ => by cases p <;> simp_all [Part.Same]

theorem KeepsAllBut.drawn (hl : Part.drawCount ∈ l := by simp [partsWritten]) : KeepsAllBut l s t.drawn :=
  h.write hl fun p _ => by cases p <;> simp_all [Part.Same]

theorem KeepsAllBut.raise {f : Fault} (hl : Part.faultRecord ∈ l) : KeepsAllBut l s (t.raise f) :=
  h.write hl fun p _ => by cases p <;> simp_all [Part.Same]

end

theorem State.storeRange_frame {l : List Part} (hl : Part.memory ∈ l) (s : State) (x : Nat) :
    KeepsAllBut l s (s.storeRange x) := by
  induction x with
  | zero => exact .refl l s
  | succ x ih => rw [State.storeRange_succ]; exact ih.setByte hl

theorem State.loadRange_frame {l : List Part} (hl : Part.regs ∈ l) (s : State) (x : Nat) :
    KeepsAllBut l s (s.loadRange x) := by
  induction x with
  | zero => exact .refl l s
  | succ x ih => rw [State.loadRange_succ]; exact ih.setReg hl

/-- The effect of an instruction writes the instruction's own parts only. -/
theorem effectOf_frame (i : Instr) (s : State) : KeepsAllBut (partsWritten i) s (effectOf i s) := by
  have start : KeepsAllBut (partsWritten i) s s := .refl _ s
  cases i with
  | cls => exact start.setFb.setRedraw.advance
  | ret => exact start.setPc.pop
  | jp _ | jpV0 _ => exact start.setPc
  | call _ => exact start.push.setPc
  | seImm _ _ | sneImm _ _ | seReg _ _ | sneReg _ _ | skp _ => exact start.advance
  | ldImm _ _ | addImm _ _ | ldReg _ _ | orReg _ _ | andReg _ _ | xorReg _ _ | ldVxDT _ => exact start.setReg.advance
  | addReg _ _ | subReg _ _ | shrReg _ _ | subnReg _ _ | shlReg _ _ => exact start.setReg.setReg.advance
  | ldI _ | addI _ | ldF _ => exact start.setI.advance
  | rnd _ _ => exact start.drawn.setReg.advance
  | drw _ _ _ => exact start.setFb.setReg.setRedraw.advance
  | sknp _ =>
    simp only [effectOf]
    split
    · exact start.setKey.advance
    · exact start.advance
  | ldVxK _ =>
    simp only [effectOf]
    split
    · exact start.setReg.advance
    · exact start
  | ldDTVx _ => exact start.setDT.advance
  | ldSTVx _ => exact start.setST.advance
  | ldB _ => exact start.setByte.setByte.setByte.advance
  | storeRegs _ => exact (State.storeRange_frame (by simp [partsWritten]) s _).advance
  | loadRegs _ => exact (State.loadRange_frame (by simp [partsWritten]) s _).advance

/-- An instruction that can fault lists the fault record among its parts (R221). -/
theorem faultRecord_mem_partsWritten {i : Instr} {s : State} {f : Fault} (h : checkOf i s = some f) :
    Part.faultRecord ∈ partsWritten i := by
  cases i with
  | ret | call _ | drw _ _ _ | skp _ | sknp _ | ldB _ | storeRegs _ | loadRegs _ => simp [partsWritten]
  | _ => cases h

/-- Settles O18: an instruction takes a fault, which writes the fault record alone, or has its effect, whose frame is
`effectOf_frame`. -/
theorem instructionsWriteOnlyTheirParts : Obligations.InstructionsWriteOnlyTheirParts := by
  intro i s t h
  obtain ⟨f, hf, rfl⟩ | ⟨-, rfl⟩ := exec_cases h
  · exact (KeepsAllBut.refl _ s).raise (faultRecord_mem_partsWritten hf)
  · exact effectOf_frame i s

end Sys2Proof.Machine
end

section
/-!
RESET (R37, R260): the state it gives, from any state, holds the listed values and meets the invariant; `State.reset`
is the one it gives from itself.
-/
namespace Sys2Proof.Machine

theorem State.restart_reset : State.reset.restart = State.reset := rfl

/-- With nothing listed in memory, every byte reads as its reset contents (R31, R37). -/
theorem State.restart_byteAt (s : State) (a : Nat) : s.restart.byteAt a = unlistedByte s.glyphs a := rfl

theorem fbCell_fbClear (c : Nat) : fbCell fbClear c = false := by
  simp [fbCell, fbClear]

theorem State.restart_atReset (s : State) : s.restart.AtReset where
  glyphBytes a := by rw [State.restart_byteAt, unlistedByte, dif_pos a.isLt]; rfl
  otherBytes a ha := by rw [State.restart_byteAt, unlistedByte, dif_neg (by omega)]
  regs r := by simp [State.reg, State.restart, State.reset]
  index := rfl
  entry := rfl
  stack j := by simp [State.restart, State.reset]
  depth := rfl
  timers := ⟨rfl, rfl⟩
  cells c := fbCell_fbClear c
  keys k := by simp [State.key, State.restart, State.reset]
  flag := rfl
  record := rfl

/-- Settles O13: RESET answers `restart`, and `State.reset` is its own restart. -/
theorem resetGivesTheListedState : Obligations.ResetGivesTheListedState :=
  ⟨State.restart_reset ▸ State.reset.restart_atReset, fun s => ⟨s.restart, rfl, s.restart_atReset, rfl, rfl⟩⟩

theorem State.restart_inv (s : State) : s.restart.Inv where
  memWf := ⟨.nil, fun _ hc => by cases hc⟩
  reserved _ hc := by cases hc
  pcBound := by rw [s.restart_atReset.entry]; decide
  stackBound j := by simp [s.restart_atReset.stack j]
  stackZero := s.restart_atReset.stack 0
  recordFits f hf := by cases hf

/-- Settles O14: `State.reset` is its own restart. -/
theorem resetMeetsTheInvariant : Obligations.ResetMeetsTheInvariant := by
  unfold Obligations.ResetMeetsTheInvariant
  rw [← State.restart_reset]
  exact State.reset.restart_inv

end Sys2Proof.Machine
end

section
/-!
STEP keeps the invariant (R39). Each conjunct of `Inv` is followed through the effect of an instruction by a lemma of
its own; a STEP that takes a fault changes the fault record alone, and the fault it takes fits the state.
-/
namespace Sys2Proof.Machine

/-- `Inv`'s two conjuncts on memory: the canonical form, and nothing written below 0x200 (R39 item 2, R53). -/
def MemorySound (g : GlyphTable) (m : List Host.Cell) : Prop :=
  Memory.wf g m ∧ ∀ c ∈ m, 0x200 ≤ c.1

/-- `Inv`'s two conjuncts on the call stack: saved addresses were fetched, and entry 0 is never written (R27, R121). -/
def StackSound (st : Vector Word 16) : Prop :=
  (∀ j : Fin 16, st[j].toNat ≤ 0xFFE) ∧ st[(0 : Fin 16)] = 0#16

theorem State.Inv.memorySound {s : State} (h : s.Inv) : MemorySound s.glyphs s.mem := ⟨h.memWf, h.reserved⟩

theorem State.Inv.stackSound {s : State} (h : s.Inv) : StackSound s.stack := ⟨h.stackBound, h.stackZero⟩

/-- A running core meets the invariant when its memory, its stack and its `pc` do. -/
theorem State.Inv.of_running {s : State} (hrun : s.fault = none) (hmem : MemorySound s.glyphs s.mem)
    (hstack : StackSound s.stack) (hpc : s.pc.toNat ≤ 0x1100) : s.Inv where
  memWf := hmem.1
  reserved := hmem.2
  pcBound := hpc
  stackBound := hstack.1
  stackZero := hstack.2
  recordFits f hf := by rw [hrun] at hf; cases hf

/-! ### Taking a fault -/

/-- Whether a fault fits a state does not depend on the fault record. -/
theorem Fault.fits_raise {f g : Fault} {s : State} : f.Fits (s.raise g) ↔ f.Fits s := by
  cases f <;> rfl

/-- A fault that fits the state it is taken in keeps the invariant (R224, R225). -/
theorem State.Inv.raise {s : State} (h : s.Inv) {f : Fault} (hf : f.Fits s) : (s.raise f).Inv where
  memWf := h.memWf
  reserved := h.reserved
  pcBound := h.pcBound
  stackBound := h.stackBound
  stackZero := h.stackZero
  recordFits g hg := by
    obtain rfl : f = g := Option.some.inj hg
    exact Fault.fits_raise.2 hf

theorem State.readsCheck_fits {s : State} {n : Nat} {f : Fault} (h : s.readsCheck n = some f) : f.Fits s := by
  rw [State.readsCheck_eq, Option.ite_none_left_eq_some] at h
  obtain ⟨-, h⟩ := h
  cases h
  exact Nat.le_max_right _ _

theorem State.writesCheck_fits {s : State} {n : Nat} {f : Fault} (h : s.writesCheck n = some f) : f.Fits s := by
  rw [State.writesCheck_eq] at h
  split_ifs at h with h0 hlow <;> cases h
  · exact hlow
  · exact Nat.le_max_right _ _

theorem keyCheck_fits {s : State} {k : Byte} {f : Fault} (h : keyCheck k = some f) : f.Fits s := by
  rw [keyCheck_eq, Option.ite_none_right_eq_some] at h
  obtain ⟨hk, h⟩ := h
  cases h
  exact hk

/-- The fault a check reports fits the state it was made in. -/
theorem checkOf_fits {i : Instr} {s : State} {f : Fault} (h : checkOf i s = some f) : f.Fits s := by
  cases i with
  | ret =>
    obtain ⟨hsp, h⟩ := Option.ite_none_right_eq_some.1 h
    cases h
    exact ⟨rfl, hsp⟩
  | call _ =>
    obtain ⟨hsp, h⟩ := Option.ite_none_right_eq_some.1 h
    cases h
    exact ⟨rfl, Fin.ext hsp⟩
  | drw _ _ _ | loadRegs _ => exact State.readsCheck_fits h
  | ldB _ | storeRegs _ => exact State.writesCheck_fits h
  | skp _ | sknp _ => exact keyCheck_fits h
  | _ => cases h

/-! ### What the register loops leave unchanged -/

@[simp] theorem State.storeRange_pc (s : State) (x : Nat) : (s.storeRange x).pc = s.pc := by
  rw [State.storeRange_eq]

@[simp] theorem State.loadRange_pc (s : State) (x : Nat) : (s.loadRange x).pc = s.pc := by
  rw [State.loadRange_eq]

@[simp] theorem State.loadRange_mem (s : State) (x : Nat) : (s.loadRange x).mem = s.mem := by
  rw [State.loadRange_eq]

@[simp] theorem State.loadRange_glyphs (s : State) (x : Nat) : (s.loadRange x).glyphs = s.glyphs := by
  rw [State.loadRange_eq]

/-! ### Memory -/

theorem State.setByte_memorySound {s : State} {a : Nat} {v : Byte} (hlo : 0x200 ≤ a) (hhi : a < 0x1000)
    (h : MemorySound s.glyphs s.mem) : MemorySound (s.setByte a v).glyphs (s.setByte a v).mem :=
  ⟨State.setByte_wf hhi h.1, State.setByte_reserved hlo h.2⟩

/-- Writes that pass their check lie in the writable range (R53). -/
theorem State.range_of_writesCheck {s : State} {n : Nat} (h : s.writesCheck n = none) (hn : n ≠ 0) :
    0x200 ≤ s.I.toNat ∧ s.I.toNat + n ≤ 0x1000 := by
  rw [State.writesCheck_eq, if_neg hn] at h
  split_ifs at h with hlow hhigh
  exact ⟨Nat.le_of_not_lt hlow, hhigh⟩

theorem State.storeRange_memorySound {s : State} {n : Nat} (hc : s.writesCheck n = none)
    (h : MemorySound s.glyphs s.mem) : MemorySound (s.storeRange n).glyphs (s.storeRange n).mem := by
  rcases eq_or_ne n 0 with rfl | hn
  · exact h
  · obtain ⟨hlo, hhi⟩ := State.range_of_writesCheck hc hn
    exact ⟨State.storeRange_wf hhi h.1, State.storeRange_reserved hlo h.2⟩

theorem effectOf_memorySound {i : Instr} {s : State} (hc : checkOf i s = none) (h : MemorySound s.glyphs s.mem) :
    MemorySound (effectOf i s).glyphs (effectOf i s).mem := by
  cases i with
  | ldB x =>
    obtain ⟨hlo, hhi⟩ := State.range_of_writesCheck hc (by decide)
    have hrange : ∀ k < 3, 0x200 ≤ s.addr k ∧ s.addr k < 0x1000 := fun k hk => by unfold State.addr; omega
    have h0 := hrange 0 (by decide)
    have h1 := hrange 1 (by decide)
    have h2 := hrange 2 (by decide)
    exact State.setByte_memorySound h2.1 h2.2 (State.setByte_memorySound h1.1 h1.2
      (State.setByte_memorySound h0.1 h0.2 h))
  | storeRegs x => exact State.storeRange_memorySound hc h
  | loadRegs x => simpa only [effectOf, State.advance_mem, State.advance_glyphs, State.loadRange_mem,
      State.loadRange_glyphs] using h
  | sknp x => simp only [effectOf]; split <;> exact h
  | ldVxK x => simp only [effectOf]; split <;> exact h
  | _ => exact h

/-! ### Call stack -/

/-- A push of a fetched address, with room for it, lands above entry 0 (R123). -/
theorem State.push_stackSound {s : State} {v : Word} (hsp : s.sp.val ≠ 15) (hv : v.toNat ≤ 0xFFE)
    (h : StackSound s.stack) : StackSound (s.push v).stack := by
  have hval : (s.sp + 1 : Fin 16).val = s.sp.val + 1 := Fin.val_add_one_of_lt' (by omega)
  constructor
  · intro j
    simp only [State.push_stack, Fin.getElem_fin, Vector.getElem_set]
    split
    · exact hv
    · exact h.1 j
  · simp only [State.push_stack, Fin.getElem_fin, Vector.getElem_set, hval]
    exact h.2

theorem effectOf_stackSound {i : Instr} {s : State} (hc : checkOf i s = none) (hpc : s.pc.toNat ≤ 0xFFE)
    (h : StackSound s.stack) : StackSound (effectOf i s).stack := by
  cases i with
  | call _ =>
    have hsp : s.sp.val ≠ 15 := fun e => by simp [checkOf, e, Config.spLast] at hc
    exact State.push_stackSound hsp hpc h
  | ret => exact h
  | _ =>
    rw [(effectOf_frame _ s .callStack (by simp [partsWritten])).1]
    exact h

/-! ### Program counter -/

theorem zext16_toNat (nnn : Addr12) : (zext16 nnn).toNat = nnn.toNat := by
  simp only [zext16, BitVec.toNat_setWidth]; omega

theorem wide_toNat (v : Byte) : (wide v).toNat = v.toNat := by
  simp only [wide, BitVec.toNat_setWidth]; omega

/-- R128's target, as an exact integer. -/
theorem jumpTarget_toNat (nnn : Addr12) (v : Byte) :
    (zext16 nnn + wide v + 2#16).toNat = nnn.toNat + v.toNat + 2 := by
  simp only [BitVec.toNat_add, zext16_toNat, wide_toNat, BitVec.toNat_ofNat]
  omega

theorem pc_add_le {p k : Word} (hp : p.toNat ≤ 0xFFE) (hk : k.toNat ≤ 4) : (p + k).toNat ≤ 0x1100 := by
  rw [pc_add_toNat hp hk]; omega

theorem State.skipIf_pc_le {s : State} (hpc : s.pc.toNat ≤ 0xFFE) (c : Bool) : (s.skipIf c).pc.toNat ≤ 0x1100 :=
  pc_add_le hpc (by cases c <;> decide)

/-- R87: an instruction that was fetched leaves `pc` at most 0x1100, which JP V0 reaches. -/
theorem effectOf_pc_le {i : Instr} {s : State} (hpc : s.pc.toNat ≤ 0xFFE) (h : StackSound s.stack) :
    (effectOf i s).pc.toNat ≤ 0x1100 := by
  have hnext : (s.pc + 2#16).toNat ≤ 0x1100 := pc_add_le hpc (by decide)
  cases i with
  | ret => exact pc_add_le (h.1 s.sp) (by decide)
  | jp nnn | call nnn =>
    change (zext16 nnn).toNat ≤ 0x1100
    rw [zext16_toNat]; omega
  | jpV0 nnn =>
    change (zext16 nnn + wide (s.reg 0#4) + 2#16).toNat ≤ 0x1100
    rw [jumpTarget_toNat]; omega
  | seImm _ _ | sneImm _ _ | seReg _ _ | sneReg _ _ | skp _ => exact State.skipIf_pc_le hpc _
  | sknp x =>
    simp only [effectOf]
    split
    · exact hnext
    · exact pc_add_le hpc (by decide)
  | ldVxK x =>
    simp only [effectOf]
    split
    · exact hnext
    · omega
  | storeRegs x => simpa only [effectOf, State.advance_pc, State.storeRange_pc] using hnext
  | loadRegs x => simpa only [effectOf, State.advance_pc, State.loadRange_pc] using hnext
  | _ => exact hnext

/-! ### The step -/

/-- An instruction fetched by a running core keeps the invariant, whether it faults or has its effect. -/
theorem State.Inv.exec {s t : State} {i : Instr} (h : s.Inv) (hrun : s.fault = none) (hpc : s.pc.toNat ≤ 0xFFE)
    (hexec : exec i s = .next t) : t.Inv := by
  obtain ⟨f, hf, rfl⟩ | ⟨hc, rfl⟩ := exec_cases hexec
  · exact h.raise (checkOf_fits hf)
  · exact .of_running ((effectOf_fault i s).trans hrun) (effectOf_memorySound hc h.memorySound)
      (effectOf_stackSound hc hpc h.stackSound) (effectOf_pc_le hpc h.stackSound)

/-- Settles O15: a STEP takes a fetch fault or a decode fault that fits the state, or runs a fetched instruction. -/
theorem stepKeepsTheInvariant : Obligations.StepKeepsTheInvariant := by
  intro s t h hstep
  obtain ⟨hrun, ⟨hpc, rfl⟩ | ⟨hpc, ⟨e, he⟩, rfl⟩ | ⟨hpc, i, -, hexec⟩⟩ := step_cases hstep
  · exact h.raise ⟨rfl, hpc⟩
  · exact h.raise ⟨hpc, rfl, decode_error he ▸ he⟩
  · exact h.exec hrun ((fetchable_iff s.pc).1 hpc).2 hexec

end Sys2Proof.Machine
end

section
/-!
Every legal schedule keeps the invariant (R39, R240, R265). LOAD_ROM replaces the word an IllegalInstruction record
speaks of, so the induction also carries that no fault is recorded while LOAD_ROM may still come.
-/
namespace Sys2Proof.Machine

/-- Events that write none of what `Inv` reads keep it. -/
theorem State.Inv.congr {s t : State} (h : s.Inv) (hmem : t.mem = s.mem) (hglyphs : t.glyphs = s.glyphs)
    (hpc : t.pc = s.pc) (hstack : t.stack = s.stack) (hsp : t.sp = s.sp) (hfault : t.fault = s.fault) : t.Inv where
  memWf := by rw [hmem, hglyphs]; exact h.memWf
  reserved := by rw [hmem]; exact h.reserved
  pcBound := by rw [hpc]; exact h.pcBound
  stackBound := by rw [hstack]; exact h.stackBound
  stackZero := by rw [hstack]; exact h.stackZero
  recordFits f hf := by
    have hfits := h.recordFits f (hfault ▸ hf)
    cases f <;> simpa [Fault.Fits, State.fetchWord, State.byteAt, hmem, hglyphs, hpc, hsp] using hfits

/-- LOAD_ROM on a core that is not halted keeps the invariant: the program lies from 0x200 on, or is too long and
nothing is copied (R264). -/
theorem State.Inv.loadRom {s t : State} {bytes : List Byte} (h : s.Inv) (hrun : s.fault = none)
    (hload : loadRom bytes s = .next t) : t.Inv := by
  obtain ⟨f, hf, rfl⟩ | ⟨hlen, rfl⟩ := guarded_cases hload
  · obtain ⟨hlong, hf⟩ := Option.ite_none_right_eq_some.1 hf
    cases hf
    exact h.raise hlong
  · have hfit : bytes.length ≤ 3584 := by simpa [Config.maxRom] using hlen
    have heq := State.setBytes_eq bytes s Config.progStart
    have hmem : MemorySound (s.setBytes Config.progStart bytes).glyphs (s.setBytes Config.progStart bytes).mem :=
      ⟨State.setBytes_wf bytes (by simp only [Config.progStart, Config.memSize]; omega) h.memWf,
        State.setBytes_reserved bytes (le_refl _) h.reserved⟩
    rw [heq] at hmem ⊢
    exact .of_running hrun hmem h.stackSound h.pcBound

/-- Everything a TICK can do (R236): on a running core only, it writes the timers. -/
theorem tick_cases {s t : State} (h : tick s = .next t) :
    s.fault = none ∧ t = (s.setDT (countDown s.DT)).setST (countDown s.ST) := by
  unfold tick at h
  cases hf : s.fault with
  | some f => rw [hf] at h; cases h
  | none => rw [hf] at h; cases h; exact ⟨rfl, rfl⟩

/-- Events one after another: the first has a step, and the others follow from where it leads. -/
theorem deliverAll_cons_next {e : Event} {es : List Event} {s u : State} (h : deliverAll (e :: es) s = .next u) :
    ∃ t, deliver e s = .next t ∧ deliverAll es t = .next u := by
  unfold deliverAll at h
  cases hd : deliver e s with
  | next t => rw [hd] at h; exact ⟨t, rfl, h⟩
  | fault f => rw [hd] at h; cases h
  | refused r => rw [hd] at h; cases h

/-! ### The boot order -/

/-- The phase the boot order goes on from after an event it allows. -/
def BootPhase.after (p : BootPhase) : Event → BootPhase
  | .reset => .fresh
  | .loadRom _ => .loaded
  | .step => .running
  | _ => p

/-- What `bootOrderKept` asks of its first event: a LOAD_ROM comes in the fresh phase only (R264, R265). -/
theorem bootOrderKept_cons {p : BootPhase} {e : Event} {es : List Event} (hp : p ≠ .off)
    (h : bootOrderKept p (e :: es) = true) :
    bootOrderKept (p.after e) es = true ∧ ∀ bytes, e = .loadRom bytes → p = .fresh := by
  cases p with
  | off => exact absurd rfl hp
  | fresh => cases e <;> exact ⟨h, fun _ _ => rfl⟩
  | loaded | running =>
    cases e with
    | loadRom _ => cases h
    | _ => exact ⟨h, nofun⟩

/-- What holds of the state after a RESET, by how far the boot order has come: the invariant, and no fault before a
LOAD_ROM or a STEP. -/
structure State.BootInv (p : BootPhase) (s : State) : Prop where
  booted : p ≠ .off
  inv : s.Inv
  unfaulted : p = .fresh → s.fault = none

/-- An event that the boot order allows keeps the boot invariant, of the phase the order goes on from. -/
theorem State.BootInv.deliver {p : BootPhase} {e : Event} {s t : State} (h : s.BootInv p)
    (hrom : ∀ bytes, e = .loadRom bytes → p = .fresh) (hd : deliver e s = .next t) : t.BootInv (p.after e) := by
  obtain ⟨hbooted, hinv, hclean⟩ := h
  cases e with
  | reset => cases hd; exact ⟨nofun, s.restart_inv, fun _ => rfl⟩
  | loadRom bytes => exact ⟨nofun, hinv.loadRom (hclean (hrom bytes rfl)) hd, nofun⟩
  | step => exact ⟨nofun, stepKeepsTheInvariant s t hinv hd, nofun⟩
  | tick =>
    obtain ⟨-, rfl⟩ := tick_cases hd
    exact ⟨hbooted, hinv.congr rfl rfl rfl rfl rfl rfl, hclean⟩
  | keySet _ _ | redrawAck | read => cases hd; exact ⟨hbooted, hinv.congr rfl rfl rfl rfl rfl rfl, hclean⟩

theorem State.BootInv.deliverAll {p : BootPhase} {es : List Event} {s t : State} (h : s.BootInv p)
    (hkept : bootOrderKept p es = true) (hd : deliverAll es s = .next t) : t.Inv := by
  induction es generalizing p s with
  | nil => cases hd; exact h.inv
  | cons e es ih =>
    obtain ⟨hkept, hrom⟩ := bootOrderKept_cons h.booted hkept
    obtain ⟨u, hu, hd⟩ := deliverAll_cons_next hd
    exact ih (h.deliver hrom hu) hkept hd

/-- Settles O16: the leading RESET gives a state that meets the invariant in the fresh phase, and every event of the
boot order keeps it. -/
theorem legalSchedulesReachOnlyInvariantStates : Obligations.LegalSchedulesReachOnlyInvariantStates := by
  intro s t es hkept hd
  have hfresh : s.restart.BootInv .fresh := ⟨nofun, s.restart_inv, fun _ => rfl⟩
  exact hfresh.deliverAll hkept hd

end Sys2Proof.Machine
end

section
/-!
The decoder against R80's table, row by row. A word that a row selects decodes to that row's instruction with its
operands read from the word; a word that decodes was selected by the row of its instruction. The round trip, the rows'
disjointness and the exact words of each row follow.
-/
namespace Sys2Proof

/-! ### The word of its fields, through the mask of the used bits (R74, R78, R79) -/

theorem topOf_append_nnnOf (w : Word) : topOf w ++ nnnOf w = w := by
  apply BitVec.eq_of_getLsbD_eq
  intro i hi
  simp only [topOf, nnnOf, BitVec.getLsbD_append, BitVec.getLsbD_extractLsb']
  interval_cases i <;> simp

theorem topOf_append_xOf_append_kkOf (w : Word) : topOf w ++ xOf w ++ kkOf w = w := by
  apply BitVec.eq_of_getLsbD_eq
  intro i hi
  simp only [topOf, xOf, kkOf, BitVec.getLsbD_append, BitVec.getLsbD_extractLsb']
  interval_cases i <;> simp

theorem and_allBits (w : Word) : w &&& 0xFFFF#16 = w := BitVec.and_allOnes

theorem pattern_nnn {w : Word} {t : Nibble} (ht : topOf w = t) : t ++ nnnOf w = w &&& 0xFFFF#16 := by
  rw [and_allBits, ← ht, topOf_append_nnnOf]

theorem pattern_xkk {w : Word} {t : Nibble} {kk : Byte} (ht : topOf w = t) (hk : kkOf w = kk) :
    t ++ xOf w ++ kk = w &&& 0xFFFF#16 := by
  rw [and_allBits, ← ht, ← hk, topOf_append_xOf_append_kkOf]

theorem pattern_xyn {w : Word} {t n : Nibble} (ht : topOf w = t) (hn : nOf w = n) :
    t ++ xOf w ++ yOf w ++ n = w &&& 0xFFFF#16 := by
  rw [and_allBits, ← ht, ← hn, word_of_fields]

/-- Families 0x5 and 0x9: bits 3-0 are cleared (R79). -/
theorem pattern_xy {w : Word} {t : Nibble} (ht : topOf w = t) :
    t ++ xOf w ++ yOf w ++ 0x0#4 = w &&& 0xFFF0#16 := by
  have hkeep : ∀ v : Nibble, v &&& 0xF#4 = v := fun _ => BitVec.and_allOnes
  rw [and_fields, ht]
  change _ = ((t &&& 0xF#4) ++ (xOf w &&& 0xF#4) ++ (yOf w &&& 0xF#4) ++ (nOf w &&& 0x0#4) : Word)
  rw [hkeep, hkeep, hkeep, BitVec.and_zero]

/-! ### Rows (R80) -/

/-- The word selects the instruction's row of R80: "a word `w` selects the row when `w & mask = match`". -/
def Instr.RowSelects (i : Instr) (w : Word) : Prop := w &&& opcodeMask i = opcodeMatch i

/-- The instruction of the same row whose operands are the fields of `w` (R74, R80). -/
def Instr.readFrom (i : Instr) (w : Word) : Instr :=
  match i with
  | .cls => .cls
  | .ret => .ret
  | .jp _ => .jp (nnnOf w)
  | .call _ => .call (nnnOf w)
  | .seImm _ _ => .seImm (xOf w) (kkOf w)
  | .sneImm _ _ => .sneImm (xOf w) (kkOf w)
  | .seReg _ _ => .seReg (xOf w) (yOf w)
  | .ldImm _ _ => .ldImm (xOf w) (kkOf w)
  | .addImm _ _ => .addImm (xOf w) (kkOf w)
  | .ldReg _ _ => .ldReg (xOf w) (yOf w)
  | .orReg _ _ => .orReg (xOf w) (yOf w)
  | .andReg _ _ => .andReg (xOf w) (yOf w)
  | .xorReg _ _ => .xorReg (xOf w) (yOf w)
  | .addReg _ _ => .addReg (xOf w) (yOf w)
  | .subReg _ _ => .subReg (xOf w) (yOf w)
  | .shrReg _ _ => .shrReg (xOf w) (yOf w)
  | .subnReg _ _ => .subnReg (xOf w) (yOf w)
  | .shlReg _ _ => .shlReg (xOf w) (yOf w)
  | .sneReg _ _ => .sneReg (xOf w) (yOf w)
  | .ldI _ => .ldI (nnnOf w)
  | .jpV0 _ => .jpV0 (nnnOf w)
  | .rnd _ _ => .rnd (xOf w) (kkOf w)
  | .drw _ _ _ => .drw (xOf w) (yOf w) (nOf w)
  | .skp _ => .skp (xOf w)
  | .sknp _ => .sknp (xOf w)
  | .ldVxDT _ => .ldVxDT (xOf w)
  | .ldVxK _ => .ldVxK (xOf w)
  | .ldDTVx _ => .ldDTVx (xOf w)
  | .ldSTVx _ => .ldSTVx (xOf w)
  | .addI _ => .addI (xOf w)
  | .ldF _ => .ldF (xOf w)
  | .ldB _ => .ldB (xOf w)
  | .storeRegs _ => .storeRegs (xOf w)
  | .loadRegs _ => .loadRegs (xOf w)

theorem Instr.readFrom_mask (i : Instr) (w : Word) : opcodeMask (i.readFrom w) = opcodeMask i := by
  cases i <;> rfl

theorem Instr.readFrom_match (i : Instr) (w : Word) : opcodeMatch (i.readFrom w) = opcodeMatch i := by
  cases i <;> rfl

/-- The operands read from an instruction's own word are its operands (R74). -/
theorem Instr.readFrom_encode (i : Instr) : i.readFrom (encode i) = i := by
  cases i with
  | cls | ret => rfl
  | jp _ | call _ | ldI _ | jpV0 _ => simp only [Instr.readFrom, encode, nnnOf_nnn]
  | drw _ _ _ => simp only [Instr.readFrom, encode, xOf_xyn, yOf_xyn, nOf_xyn]
  | seReg _ _ | sneReg _ _ | ldReg _ _ | orReg _ _ | andReg _ _ | xorReg _ _ | addReg _ _ | subReg _ _ | shrReg _ _
  | subnReg _ _ | shlReg _ _ => simp only [Instr.readFrom, encode, xOf_xyn, yOf_xyn]
  | _ => simp only [Instr.readFrom, encode, xOf_xkk, kkOf_xkk]

/-- The encoder's word selects the instruction's own row. -/
theorem encode_rowSelects (i : Instr) : i.RowSelects (encode i) := by
  cases i with
  | cls | ret => rfl
  | jp _ | call _ | ldI _ | jpV0 _ => exact Laws.EncodeRow.of_top (topOf_nnn ..)
  | seImm _ _ | sneImm _ _ | ldImm _ _ | addImm _ _ | rnd _ _ => exact Laws.EncodeRow.of_top (topOf_xkk ..)
  | seReg _ _ | sneReg _ _ | drw _ _ _ => exact Laws.EncodeRow.of_top (topOf_xyn ..)
  | ldReg _ _ | orReg _ _ | andReg _ _ | xorReg _ _ | addReg _ _ | subReg _ _ | shrReg _ _ | subnReg _ _ | shlReg _ _ =>
    exact Laws.EncodeRow.of_top_low (topOf_xyn ..) (nOf_xyn ..)
  | _ => exact Laws.EncodeRow.of_top_byte (topOf_xkk ..) (kkOf_xkk ..)

/-- A word's operands, encoded again in a row it selects, give the word with its ignored bits cleared. -/
theorem encode_readFrom {i : Instr} {w : Word} (h : i.RowSelects w) : encode (i.readFrom w) = w &&& usedBits i := by
  cases i <;> simp only [Instr.RowSelects, opcodeMask, opcodeMatch] at h
  case cls | ret => exact h.symm
  case jp | call | ldI | jpV0 => exact pattern_nnn (topOf_of_mask h rfl)
  case seImm | sneImm | ldImm | addImm | rnd => exact pattern_xkk (topOf_of_mask h rfl) rfl
  case seReg | sneReg => exact pattern_xy (topOf_of_mask h rfl)
  case drw => exact pattern_xyn (topOf_of_mask h rfl) rfl
  case ldReg | orReg | andReg | xorReg | addReg | subReg | shrReg | subnReg | shlReg =>
    exact pattern_xyn (topOf_of_mask h rfl) (nOf_of_mask h rfl)
  all_goals exact pattern_xkk (topOf_of_mask h rfl) (kkOf_of_mask h rfl)

/-! ### The decoder takes the row that selects the word, and no other -/

/-- A word that a row selects decodes to that row's instruction, its operands read from the word. -/
theorem decode_of_rowSelects {i : Instr} {w : Word} (h : i.RowSelects w) : decode w = .ok (i.readFrom w) := by
  cases i <;> simp only [Instr.RowSelects, opcodeMask, opcodeMatch] at h
  case jp => exact decode_top1 (topOf_of_mask h rfl)
  case call => exact decode_top2 (topOf_of_mask h rfl)
  case seImm => exact decode_top3 (topOf_of_mask h rfl)
  case sneImm => exact decode_top4 (topOf_of_mask h rfl)
  case seReg => exact decode_top5 (topOf_of_mask h rfl)
  case ldImm => exact decode_top6 (topOf_of_mask h rfl)
  case addImm => exact decode_top7 (topOf_of_mask h rfl)
  case sneReg => exact decode_top9 (topOf_of_mask h rfl)
  case ldI => exact decode_topA (topOf_of_mask h rfl)
  case jpV0 => exact decode_topB (topOf_of_mask h rfl)
  case rnd => exact decode_topC (topOf_of_mask h rfl)
  case drw => exact decode_topD (topOf_of_mask h rfl)
  case cls | ret =>
    rw [decode_top0 (topOf_of_mask h rfl), decodeFamily0, kkOf_of_mask h rfl]; rfl
  case skp | sknp =>
    rw [decode_topE (topOf_of_mask h rfl), decodeFamilyE, kkOf_of_mask h rfl]; rfl
  case ldReg | orReg | andReg | xorReg | addReg | subReg | shrReg | subnReg | shlReg =>
    rw [decode_top8 (topOf_of_mask h rfl), decodeFamily8, nOf_of_mask h rfl]; rfl
  case ldVxDT | ldVxK | ldDTVx | ldSTVx | addI | ldF | ldB | storeRegs | loadRegs =>
    rw [decode_topF (topOf_of_mask h rfl), decodeFamilyF, kkOf_of_mask h rfl]; rfl

theorem decodeFamily0_rowSelects {w : Word} {i : Instr} (ht : topOf w = 0x0#4) (h : decodeFamily0 w = .ok i) :
    i.RowSelects w := by
  unfold decodeFamily0 at h
  split_ifs at h with hk hk <;> cases h <;> exact Laws.EncodeRow.of_top_byte ht hk

theorem decodeFamily8_rowSelects {w : Word} {i : Instr} (ht : topOf w = 0x8#4) (h : decodeFamily8 w = .ok i) :
    i.RowSelects w := by
  unfold decodeFamily8 at h
  split_ifs at h with hn hn hn hn hn hn hn hn hn <;> cases h <;> exact Laws.EncodeRow.of_top_low ht hn

theorem decodeFamilyE_rowSelects {w : Word} {i : Instr} (ht : topOf w = 0xE#4) (h : decodeFamilyE w = .ok i) :
    i.RowSelects w := by
  unfold decodeFamilyE at h
  split_ifs at h with hk hk <;> cases h <;> exact Laws.EncodeRow.of_top_byte ht hk

theorem decodeFamilyF_rowSelects {w : Word} {i : Instr} (ht : topOf w = 0xF#4) (h : decodeFamilyF w = .ok i) :
    i.RowSelects w := by
  unfold decodeFamilyF at h
  split_ifs at h with hk hk hk hk hk hk hk hk hk <;> cases h <;> exact Laws.EncodeRow.of_top_byte ht hk

/-- A word that decodes to an instruction selects that instruction's row. -/
theorem rowSelects_of_decode {w : Word} {i : Instr} (h : decode w = .ok i) : i.RowSelects w := by
  rcases nibble_cases (topOf w) with t | t | t | t | t | t | t | t | t | t | t | t | t | t | t | t
  · exact decodeFamily0_rowSelects t (decode_top0 t ▸ h)
  · rw [decode_top1 t] at h; cases h; exact Laws.EncodeRow.of_top t
  · rw [decode_top2 t] at h; cases h; exact Laws.EncodeRow.of_top t
  · rw [decode_top3 t] at h; cases h; exact Laws.EncodeRow.of_top t
  · rw [decode_top4 t] at h; cases h; exact Laws.EncodeRow.of_top t
  · rw [decode_top5 t] at h; cases h; exact Laws.EncodeRow.of_top t
  · rw [decode_top6 t] at h; cases h; exact Laws.EncodeRow.of_top t
  · rw [decode_top7 t] at h; cases h; exact Laws.EncodeRow.of_top t
  · exact decodeFamily8_rowSelects t (decode_top8 t ▸ h)
  · rw [decode_top9 t] at h; cases h; exact Laws.EncodeRow.of_top t
  · rw [decode_topA t] at h; cases h; exact Laws.EncodeRow.of_top t
  · rw [decode_topB t] at h; cases h; exact Laws.EncodeRow.of_top t
  · rw [decode_topC t] at h; cases h; exact Laws.EncodeRow.of_top t
  · rw [decode_topD t] at h; cases h; exact Laws.EncodeRow.of_top t
  · exact decodeFamilyE_rowSelects t (decode_topE t ▸ h)
  · exact decodeFamilyF_rowSelects t (decode_topF t ▸ h)

/-! ### The round trip and the rows -/

theorem decode_encode (i : Instr) : decode (encode i) = .ok i := by
  rw [decode_of_rowSelects (encode_rowSelects i), Instr.readFrom_encode]

theorem encode_injective : Function.Injective encode := fun i j h =>
  Except.ok.inj (by rw [← decode_encode i, h, decode_encode j])

theorem decodeBytes_bytesOfWord {w : Word} {i : Instr} (h : decode w = .ok i) (rest : List Byte) :
    decodeBytes (bytesOfWord w ++ rest) = .ok (i, rest) := by
  simp only [bytesOfWord, List.cons_append, List.nil_append, decodeBytes, wordOfBytes_bytes, h]

theorem decodeBytes_encodeBytes (i : Instr) (rest : List Byte) : decodeBytes (encodeBytes i ++ rest) = .ok (i, rest) :=
  decodeBytes_bytesOfWord (decode_encode i) rest

theorem decode_ok_iff (w : Word) (i : Instr) :
    decode w = .ok i ↔ i.RowSelects w ∧ encode i = w &&& usedBits i := by
  constructor
  · intro h
    have hrow := rowSelects_of_decode h
    have hi : i.readFrom w = i := Except.ok.inj ((decode_of_rowSelects hrow).symm.trans h)
    exact ⟨hrow, by rw [← encode_readFrom hrow, hi]⟩
  · rintro ⟨hrow, henc⟩
    have hi : i.readFrom w = i := encode_injective ((encode_readFrom hrow).trans henc.symm)
    rw [decode_of_rowSelects hrow, hi]

/-- Two rows that select one word both hold the instruction the word decodes to, so they are one row (R80). -/
theorem row_unique {w : Word} {i j : Instr} (hi : i.RowSelects w) (hj : j.RowSelects w) :
    opcodeMask i = opcodeMask j ∧ opcodeMatch i = opcodeMatch j := by
  have hij : i.readFrom w = j.readFrom w :=
    Except.ok.inj ((decode_of_rowSelects hi).symm.trans (decode_of_rowSelects hj))
  rw [← i.readFrom_mask w, ← i.readFrom_match w, hij, j.readFrom_mask, j.readFrom_match]
  exact ⟨rfl, rfl⟩

/-- Settles O1: the encoder's word selects the instruction's own row, and the operands read back from it are its own. -/
theorem decodeOfEncodeIsTheInstruction : Obligations.DecodeOfEncodeIsTheInstruction :=
  fun i rest _ => decodeBytes_encodeBytes i rest

/-- Settles O2: `decode_ok_iff` is the first clause, `row_unique` the second. -/
theorem decodedWordBelongsToItsRow : Obligations.DecodedWordBelongsToItsRow :=
  ⟨decode_ok_iff, fun _ _ _ => row_unique⟩

/-- Settles O5: each pair of bytes is the encoding of its instruction. -/
theorem sampleWordsDecode : Obligations.SampleWordsDecode :=
  ⟨decodeBytes_encodeBytes .cls [], decodeBytes_encodeBytes (.call 0x210#12) [],
    decodeBytes_encodeBytes (.ldImm 0xA#4 0x3E#8) [], decodeBytes_encodeBytes (.shlReg 0x0#4 0x1#4) [],
    decodeBytes_encodeBytes (.ldI 0x300#12) [], decodeBytes_encodeBytes (.drw 0xA#4 0xB#4 0x5#4) [],
    decodeBytes_encodeBytes (.sknp 0x6#4) [], decodeBytes_encodeBytes (.storeRegs 0x3#4) [],
    decodeBytes_encodeBytes (.ldVxDT 0x1#4) []⟩

end Sys2Proof
end

section
/-!
The words the decoder rejects (R81), and those whose ignored bits it does not look at (R79): family by family, on the
fields of the word and then on its number.
-/
namespace Sys2Proof

/-! ### Fields as quotients and remainders (R74) -/

theorem topOf_toNat (w : Word) : (topOf w).toNat = w.toNat / 4096 := by
  simp only [topOf, BitVec.extractLsb'_toNat, Nat.shiftRight_eq_div_pow]
  omega

theorem kkOf_toNat (w : Word) : (kkOf w).toNat = w.toNat % 256 := by
  simp [kkOf, BitVec.extractLsb'_toNat]

theorem nOf_toNat (w : Word) : (nOf w).toNat = w.toNat % 16 := by
  simp [nOf, BitVec.extractLsb'_toNat]

/-! ### The rejections of each family (R78, R81) -/

/-- A chain of alternatives rejects when the first is not taken and the rest rejects. -/
theorem ite_ok_eq_error_iff {c : Prop} [Decidable c] {i : Instr} {r : Except DecodeError Instr} {e : DecodeError} :
    (if c then Except.ok i else r) = .error e ↔ ¬ c ∧ r = .error e :=
  ⟨error_of_ite, fun ⟨hc, hr⟩ => (if_neg hc).trans hr⟩

theorem decodeFamily0_rejects_iff (w : Word) : decodeFamily0 w = .error (.illegalInstruction w) ↔
    kkOf w ≠ 0xE0#8 ∧ kkOf w ≠ 0xEE#8 := by
  simp only [decodeFamily0, ite_ok_eq_error_iff, and_true, ne_eq]

theorem decodeFamily8_rejects_iff (w : Word) : decodeFamily8 w = .error (.illegalInstruction w) ↔
    nOf w ∈ [0x8#4, 0x9#4, 0xA#4, 0xB#4, 0xC#4, 0xD#4, 0xF#4] := by
  refine ⟨fun h => (decodeFamily8_error h).1, fun h => ?_⟩
  simp only [decodeFamily8, ite_ok_eq_error_iff, and_true]
  revert h
  generalize nOf w = n
  revert n
  decide

theorem decodeFamilyE_rejects_iff (w : Word) : decodeFamilyE w = .error (.illegalInstruction w) ↔
    kkOf w ≠ 0x9E#8 ∧ kkOf w ≠ 0xA1#8 := by
  simp only [decodeFamilyE, ite_ok_eq_error_iff, and_true, ne_eq]

theorem decodeFamilyF_rejects_iff (w : Word) : decodeFamilyF w = .error (.illegalInstruction w) ↔
    kkOf w ∉ [0x07#8, 0x0A#8, 0x15#8, 0x18#8, 0x1E#8, 0x29#8, 0x33#8, 0x55#8, 0x65#8] := by
  simp only [decodeFamilyF, ite_ok_eq_error_iff, and_true, List.mem_cons, List.not_mem_nil, or_false, not_or]

/-- R81's table on the fields of the word. -/
theorem decode_rejects_iff (w : Word) : decode w = .error (.illegalInstruction w) ↔
    (topOf w = 0x0#4 ∧ kkOf w ≠ 0xE0#8 ∧ kkOf w ≠ 0xEE#8) ∨
    (topOf w = 0x8#4 ∧ nOf w ∈ [0x8#4, 0x9#4, 0xA#4, 0xB#4, 0xC#4, 0xD#4, 0xF#4]) ∨
    (topOf w = 0xE#4 ∧ kkOf w ≠ 0x9E#8 ∧ kkOf w ≠ 0xA1#8) ∨
    (topOf w = 0xF#4 ∧ kkOf w ∉ [0x07#8, 0x0A#8, 0x15#8, 0x18#8, 0x1E#8, 0x29#8, 0x33#8, 0x55#8, 0x65#8]) := by
  rcases nibble_cases (topOf w) with t | t | t | t | t | t | t | t | t | t | t | t | t | t | t | t
  · rw [decode_top0 t, decodeFamily0_rejects_iff]; simp [t]
  · rw [decode_top1 t]; simp [t]
  · rw [decode_top2 t]; simp [t]
  · rw [decode_top3 t]; simp [t]
  · rw [decode_top4 t]; simp [t]
  · rw [decode_top5 t]; simp [t]
  · rw [decode_top6 t]; simp [t]
  · rw [decode_top7 t]; simp [t]
  · rw [decode_top8 t, decodeFamily8_rejects_iff]; simp [t]
  · rw [decode_top9 t]; simp [t]
  · rw [decode_topA t]; simp [t]
  · rw [decode_topB t]; simp [t]
  · rw [decode_topC t]; simp [t]
  · rw [decode_topD t]; simp [t]
  · rw [decode_topE t, decodeFamilyE_rejects_iff]; simp [t]
  · rw [decode_topF t, decodeFamilyF_rejects_iff]; simp [t]

/-- Settles O3: the table of `decode_rejects_iff` with every field read as its number. -/
theorem illegalWordsAreThoseListed : Obligations.IllegalWordsAreThoseListed := by
  intro w
  have hn : nOf w ∈ [0x8#4, 0x9#4, 0xA#4, 0xB#4, 0xC#4, 0xD#4, 0xF#4] ↔
      0x8 ≤ w.toNat % 16 ∧ w.toNat % 16 ≤ 0xD ∨ w.toNat % 16 = 0xF := by
    rw [← nOf_toNat]
    generalize nOf w = n
    revert n
    decide
  rw [decode_rejects_iff, hn]
  simp only [← BitVec.toNat_inj, topOf_toNat, kkOf_toNat, List.mem_cons, List.not_mem_nil, ne_eq, BitVec.toNat_ofNat,
    Nat.reducePow, Nat.reduceMod]

/-! ### Ignored bits (R79) -/

/-- Settles O4: bits 3-0 of families 0x5 and 0x9 are in no field their rows read, nor are bits 11-8 of CLS and RET;
the three words are examples of them. -/
theorem ignoredBitsDoNotSelect : Obligations.IgnoredBitsDoNotSelect := by
  have h5 (x y z : Nibble) : decode (0x5#4 ++ x ++ y ++ z) = .ok (.seReg x y) := by
    rw [decode_top5 (topOf_xyn ..), xOf_xyn, yOf_xyn]
  have h9 (x y z : Nibble) : decode (0x9#4 ++ x ++ y ++ z) = .ok (.sneReg x y) := by
    rw [decode_top9 (topOf_xyn ..), xOf_xyn, yOf_xyn]
  have hcls (z : Nibble) : decode (0x0#4 ++ z ++ 0xE0#8) = .ok .cls := by
    rw [decode_top0 (topOf_xkk ..), decodeFamily0, kkOf_xkk]; rfl
  have hret (z : Nibble) : decode (0x0#4 ++ z ++ 0xEE#8) = .ok .ret := by
    rw [decode_top0 (topOf_xkk ..), decodeFamily0, kkOf_xkk]; rfl
  exact ⟨fun x y z => ⟨h5 x y z, h9 x y z⟩, fun z => ⟨hcls z, hret z⟩, h5 0x1#4 0x2#4 0x1#4, hcls 0x1#4, hret 0xF#4⟩

end Sys2Proof
end

section
/-!
STEP (R71, R72, R73, R82): the fetched word as a number, and which of the three ways a running core takes.
-/
namespace Sys2Proof.Machine

theorem State.fetchWord_eq (s : State) : s.fetchWord =
    BitVec.ofNat 16 ((s.byteAt s.pc.toNat).toNat * 256 + (s.byteAt (s.pc.toNat + 1)).toNat) :=
  wordOfBytes_eq _ _

theorem fetchable_eq_false_iff (pc : Word) : fetchable pc = false ↔ pc.toNat < 0x200 ∨ 0xFFE < pc.toNat := by
  rw [← Bool.not_eq_true, fetchable_iff]
  omega

/-- Settles O6: a running core in the fetch range executes what the fetched word decodes to. -/
theorem stepRunsTheDecodedInstruction : Obligations.StepRunsTheDecodedInstruction := by
  intro s i hrun hlo hhi hdec
  rw [← State.fetchWord_eq] at hdec
  exact step_decoded hrun ((fetchable_iff s.pc).2 ⟨hlo, hhi⟩) hdec

/-- Settles O9: a running core in the fetch range takes the fetched word's rejection as a fault that carries it. -/
theorem illegalWordFaultsAtDecode : Obligations.IllegalWordFaultsAtDecode := by
  intro s e hrun hlo hhi hdec
  rw [← State.fetchWord_eq] at hdec ⊢
  exact step_illegal hrun ((fetchable_iff s.pc).2 ⟨hlo, hhi⟩) hdec

/-! ### PcOutOfBounds is the fetch's fault alone (R73, R129) -/

/-- No instruction's check reports PcOutOfBounds, whatever address the instruction will leave in `pc`. -/
theorem checkOf_ne_pcOutOfBounds (i : Instr) (s : State) (p : Word) : checkOf i s ≠ some (.pcOutOfBounds p) := by
  intro h
  cases i with
  | ret | call _ => simp [checkOf] at h
  | drw _ _ _ | loadRegs _ => simp [checkOf, State.readsCheck_eq] at h
  | ldB _ | storeRegs _ =>
    simp only [checkOf, State.writesCheck_eq] at h
    split_ifs at h <;> cases h
  | skp _ | sknp _ => simp [checkOf, keyCheck_eq] at h
  | _ => cases h

theorem exec_fault_ne_pcOutOfBounds {i : Instr} {s t : State} (hrun : s.fault = none) (h : exec i s = .next t)
    (p : Word) : t.fault ≠ some (.pcOutOfBounds p) := by
  obtain ⟨f, hf, rfl⟩ | ⟨-, rfl⟩ := exec_cases h
  · exact fun hp => checkOf_ne_pcOutOfBounds i s p (hf.trans hp)
  · rw [effectOf_fault, hrun]
    exact nofun

/-- Settles O8: outside the range the fetch faults; inside it a STEP takes a decode fault or executes, and neither is
PcOutOfBounds. -/
theorem fetchOutsideItsRangeFaults : Obligations.FetchOutsideItsRangeFaults := by
  refine ⟨fun s hrun hpc => step_pcOutOfBounds hrun ((fetchable_eq_false_iff s.pc).2 hpc), ?_,
    fun _ _ _ hrun h => exec_fault_ne_pcOutOfBounds hrun h⟩
  intro s t hrun hlo hhi hstep
  obtain ⟨-, ⟨hpc, -⟩ | ⟨-, -, rfl⟩ | ⟨-, i, -, hexec⟩⟩ := step_cases hstep
  · rw [fetchable_eq_false_iff] at hpc
    omega
  · exact nofun
  · exact exec_fault_ne_pcOutOfBounds hrun hexec

end Sys2Proof.Machine
end

section
/-!
The program counter against R87's table: the effect of each instruction, on the exact integers.
-/
namespace Sys2Proof.Machine

theorem keyOf_eq_ofNat (v : Byte) : keyOf v = BitVec.ofNat 4 v.toNat := by
  rw [keyOf, ← BitVec.ofNat_toNat]

theorem State.firstKey_isSome_iff (s : State) : s.firstKey.isSome = true ↔ ∃ k : Nibble, s.key k = true := by
  rw [← Option.ne_none_iff_isSome, ne_eq, State.firstKey_none]
  simp

/-- A conditional skip from the fetch range advances by 4 or by 2, with no wrap (R120). -/
theorem State.skipIf_pc_toNat {s : State} (hpc : s.pc.toNat ≤ 0xFFE) (c : Bool) :
    (s.skipIf c).pc.toNat = if c = true then s.pc.toNat + 4 else s.pc.toNat + 2 := by
  cases c with
  | true | false => exact pc_add_toNat hpc (by decide)

/-- R87: an instruction that was fetched, and does not fault, leaves `pc` where the table says. -/
theorem effectOf_pc_toNat {i : Instr} {s : State} (hpc : s.pc.toNat ≤ 0xFFE) (h : StackSound s.stack) :
    (effectOf i s).pc.toNat = pcAfter s i := by
  have hnext : (s.pc + 2#16).toNat = s.pc.toNat + 2 := pc_add_toNat hpc (by decide)
  cases i with
  | jp nnn | call nnn => exact zext16_toNat nnn
  | jpV0 nnn => exact jumpTarget_toNat nnn (s.reg 0#4)
  | ret => exact pc_add_toNat (h.1 s.sp) (by decide)
  | seImm _ _ | sneImm _ _ | seReg _ _ | sneReg _ _ =>
    simp only [effectOf, State.skipIf_pc_toNat hpc, pcAfter, decide_eq_true_eq]
  | skp x => simp only [effectOf, State.skipIf_pc_toNat hpc, pcAfter, keyOf_eq_ofNat]
  | sknp x =>
    simp only [effectOf, pcAfter, ← keyOf_eq_ofNat]
    cases s.key (keyOf (s.reg x)) with
    | true => exact hnext
    | false => exact pc_add_toNat hpc (by decide)
  | ldVxK x =>
    simp only [effectOf, pcAfter, ← State.firstKey_isSome_iff]
    cases s.firstKey with
    | some k => exact hnext
    | none => rfl
  | storeRegs _ | loadRegs _ =>
    simpa only [effectOf, pcAfter, State.advance_pc, State.storeRange_pc, State.loadRange_pc] using hnext
  | _ => exact hnext

/-- Settles O19: a fault leaves `pc`, and the effect follows the table, whose values `effectOf_pc_le` bounds. -/
theorem programCounterFollowsTheTable : Obligations.ProgramCounterFollowsTheTable := by
  intro i s t h hrun _ hpc hexec
  obtain ⟨f, -, rfl⟩ | ⟨-, rfl⟩ := exec_cases hexec
  · exact ⟨nofun, fun _ => rfl⟩
  · have htable : (effectOf i s).pc.toNat = pcAfter s i := effectOf_pc_toNat hpc h.stackSound
    have hle : (effectOf i s).pc.toNat ≤ 0x1100 := effectOf_pc_le hpc h.stackSound
    exact ⟨fun _ => ⟨htable, htable ▸ hle⟩, fun hf => absurd ((effectOf_fault i s).trans hrun) hf⟩

end Sys2Proof.Machine
end

section
/-!
The display instructions (41_display.md): CLS clears every cell; DRW is the sprite engine's `drawRows` on the bytes at
`I`, and its collision flag is what VF receives.
-/
namespace Sys2Proof.Machine

/-- Settles O27: CLS has no check, and its effect leaves the cleared framebuffer. -/
theorem clsClearsTheScreen : Obligations.ClsClearsTheScreen := by
  refine ⟨fun w hw => decode_of_rowSelects (i := .cls) hw, fun s => ⟨effectOf .cls s, exec_of_check rfl, ?_⟩⟩
  have hframe : KeepsAllBut [.display, .redrawFlag] s (effectOf .cls s) := effectOf_frame .cls s
  exact ⟨fun c _ => fbCell_fbClear c, rfl, rfl, hframe⟩

/-! ### DRW -/

/-- The cells of the sprite at `I` and `(V[x], V[y])` are those the sprite engine's rows cover. -/
theorem State.spriteCovers_iff_rowsCover (s : State) (x y n : Nibble) (c : Nat) : s.SpriteCovers x y n c ↔
    rowsCover (fun r => s.byteAt (s.addr r)) ((s.reg x).toNat % 64) ((s.reg y).toNat % 32) n.toNat c := Iff.rfl

/-- R103: the canvas DRW leaves has exactly the cells under the sprite flipped, and a collision exactly when one of
them was lit. -/
theorem State.sprite_spec (s : State) (x y n : Nibble) :
    Flips (s.SpriteCovers x y n) s.fb (s.sprite x y n).fb ∧
    ((s.sprite x y n).collision = true ↔ ∃ c < 2048, s.SpriteCovers x y n c ∧ s.cell c = true) := by
  obtain ⟨hflips, hcollision⟩ := drawRows_spec { fb := s.fb, collision := false } (fun r => s.byteAt (s.addr r))
    ((s.reg x).toNat % 64) ((s.reg y).toNat % 32) n.toNat (by omega)
  refine ⟨hflips, hcollision.trans ?_⟩
  simp only [Bool.false_eq_true, false_or, ← State.spriteCovers_iff_rowsCover, State.cell]

theorem effectOf_drw_reg (x y n r : Nibble) (s : State) : (effectOf (.drw x y n) s).reg r =
    if r = vf then boolToByte (s.sprite x y n).collision else s.reg r := by
  simp [effectOf]

/-- Reads that leave memory report the first address outside it (R52, R226). -/
theorem State.readsCheck_some {s : State} {n : Nat} (hn : 0 < n) (h : 0x1000 < s.I.toNat + n) :
    s.readsCheck n = some (.memOutOfBounds (max s.I.toNat 0x1000)) := by
  rw [State.readsCheck_eq, if_neg (by omega)]

/-- Settles O49: when the reads pass, `sprite_spec` says which cells are flipped and what VF receives; when they do
not, DRW takes their fault. -/
theorem drwXorsTheSprite : Obligations.DrwXorsTheSprite := by
  refine ⟨fun w hw => decode_of_rowSelects (i := .drw 0#4 0#4 0#4) hw, fun x y n s hfit => ?_,
    fun x y n s hn hout => exec_of_fault (State.readsCheck_some hn hout)⟩
  obtain ⟨hflips, hcollision⟩ := s.sprite_spec x y n
  have hvf : (effectOf (.drw x y n) s).reg vf = boolToByte (s.sprite x y n).collision :=
    (effectOf_drw_reg x y n vf s).trans (if_pos rfl)
  have hframe : KeepsAllBut [.regs, .display, .redrawFlag] s (effectOf (.drw x y n) s) :=
    (KeepsAllBut.refl _ s).setFb.setReg.setRedraw.advance
  refine ⟨effectOf (.drw x y n) s, exec_of_check (State.readsCheck_none hfit), hflips, fun hlit => ?_,
    fun hdark => ?_, rfl, fun r hr => ?_, rfl, hframe⟩
  · exact hvf.trans (by rw [hcollision.2 hlit]; rfl)
  · exact hvf.trans (by rw [Bool.eq_false_iff.2 (mt hcollision.1 hdark)]; rfl)
  · exact (effectOf_drw_reg x y n r s).trans (if_neg hr)

end Sys2Proof.Machine
end

section
/-!
The control-flow instructions (42_control_flow.md): what the call stack's push and pop do to `sp`, the checks that
guard them, and the four conditional skips by one lemma; the jumps follow from their targets.
-/
namespace Sys2Proof.Machine

/-! ### Call stack -/

/-- A push with room for it raises `sp` by one (R123). -/
theorem State.push_sp_val {s : State} (h : s.sp.val < 15) (v : Word) : (s.push v).sp.val = s.sp.val + 1 :=
  Fin.val_add_one_of_lt' (by omega)

/-- A pop of a stack that is not empty lowers `sp` by one (R121). -/
theorem State.pop_sp_val {s : State} (h : 0 < s.sp.val) : s.pop.sp.val + 1 = s.sp.val := by
  rw [State.pop_sp, Fin.val_sub_one_of_ne_zero (Fin.ne_of_val_ne h.ne')]
  omega

/-- A push writes the entry above the old top and no other (R27, R123). -/
theorem State.push_stack_of_ne {s : State} {j : Fin 16} (h : s.sp.val < 15) (hj : j.val ≠ s.sp.val + 1) (v : Word) :
    (s.push v).stack[j] = s.stack[j] :=
  Vector.getElem_set_ne (Fin.isLt _) j.isLt fun e => hj (e.symm.trans (State.push_sp_val h v))

theorem State.top_congr {s u : State} (hstack : u.stack = s.stack) (hsp : u.sp = s.sp) : u.top = s.top := by
  simp only [State.top, hstack, hsp]

/-- RET's check passes above `sp = 0` (R121). -/
theorem checkOf_ret {s : State} (h : 0 < s.sp.val) : checkOf .ret s = none :=
  if_neg (Fin.ne_of_val_ne h.ne')

/-- At `sp = 0` RET's check names StackUnderflow with its own address (R121, R221). -/
theorem checkOf_ret_empty {s : State} (h : s.sp.val = 0) : checkOf .ret s = some (.stackUnderflow s.pc) :=
  if_pos (Fin.ext h)

/-- CALL's check passes below `sp = 15` (R123). -/
theorem checkOf_call {s : State} (nnn : Addr12) (h : s.sp.val < 15) : checkOf (.call nnn) s = none :=
  if_neg h.ne

/-- At `sp = 15` CALL's check names StackOverflow with its own address (R123, R221). -/
theorem checkOf_call_full {s : State} (nnn : Addr12) (h : s.sp.val = 15) :
    checkOf (.call nnn) s = some (.stackOverflow s.pc) :=
  if_pos h

/-- Settles O28: above the empty stack RET has its effect, a pop; on it, RET takes the fault of its check. -/
theorem retPopsTheCallStack : Obligations.RetPopsTheCallStack := by
  refine ⟨fun _ hw => decode_of_rowSelects (i := .ret) hw, fun s hsp => ?_,
    fun s hempty => exec_of_fault (checkOf_ret_empty hempty)⟩
  have hframe : KeepsAllBut [.callStack] s (effectOf .ret s) := (KeepsAllBut.refl _ s).setPc.pop
  have hdepth : (effectOf .ret s).sp.val + 1 = s.sp.val := State.pop_sp_val (s := s.setPc _) hsp
  exact ⟨effectOf .ret s, exec_of_check (checkOf_ret hsp), rfl, hdepth, fun _ => rfl, hframe⟩

/-- Settles O30: below the full stack CALL has its effect, a push and a jump; on it, CALL takes the fault of its
check. -/
theorem callPushesItsOwnAddress : Obligations.CallPushesItsOwnAddress := by
  refine ⟨fun _ hw => decode_of_rowSelects (i := .call 0#12) hw, fun nnn s hsp => ?_,
    fun nnn s hfull => exec_of_fault (checkOf_call_full nnn hfull)⟩
  have hframe : KeepsAllBut [.callStack] s (effectOf (.call nnn) s) := (KeepsAllBut.refl _ s).push.setPc
  exact ⟨effectOf (.call nnn) s, exec_of_check (checkOf_call nnn hsp), State.push_sp_val hsp s.pc,
    State.push_top s s.pc, fun _ hj => State.push_stack_of_ne hsp hj s.pc, zext16_toNat nnn, hframe⟩

/-- Settles O20: RET reads the entry that CALL pushed (`State.push_top`), and its pop undoes CALL's push of `sp`. -/
theorem callThenReturnComesBack : Obligations.CallThenReturnComesBack := by
  intro s nnn hsp
  refine ⟨effectOf (.call nnn) s, exec_of_check (checkOf_call nnn hsp), fun u hstack husp => ?_⟩
  have htop : u.top = s.pc := (State.top_congr (s := s.push s.pc) hstack husp).trans (State.push_top s s.pc)
  have hdepth : u.sp.val = s.sp.val + 1 := (congrArg Fin.val husp).trans (State.push_sp_val hsp s.pc)
  have hpos : 0 < u.sp.val := by omega
  have hback : u.pop.sp.val + 1 = u.sp.val := State.pop_sp_val hpos
  exact ⟨effectOf .ret u, exec_of_check (checkOf_ret hpos), congrArg (· + 2#16) htop,
    Fin.ext (show u.pop.sp.val = s.sp.val by omega)⟩

/-! ### Jumps -/

/-- Settles O29: JP's effect sets `pc` alone. -/
theorem jpJumpsToItsAddress : Obligations.JpJumpsToItsAddress :=
  ⟨fun _ hw => decode_of_rowSelects (i := .jp 0#12) hw, fun nnn s =>
    ⟨effectOf (.jp nnn) s, exec_of_check rfl, zext16_toNat nnn, effectOf_frame (.jp nnn) s⟩⟩

/-- Settles O35: JP V0's effect sets `pc` alone, to a sum that does not wrap (`jumpTarget_toNat`). -/
theorem jpV0AddsV0AndTwo : Obligations.JpV0AddsV0AndTwo :=
  ⟨fun _ hw => decode_of_rowSelects (i := .jpV0 0#12) hw, fun nnn s =>
    ⟨effectOf (.jpV0 nnn) s, exec_of_check rfl, jumpTarget_toNat nnn (s.reg 0#4), effectOf_frame (.jpV0 nnn) s⟩⟩

/-! ### Conditional skips (R120) -/

theorem State.skipIf_decide_pc (s : State) (c : Prop) [Decidable c] :
    (s.skipIf (decide c)).pc = if c then s.pc + 4#16 else s.pc + 2#16 := by
  by_cases hc : c <;> simp [State.skipIf, hc]

/-- An instruction that checks nothing and skips on `c` moves `pc` by R120 and changes nothing else. -/
theorem exec_conditionalSkip {i : Instr} {s : State} {c : Prop} [Decidable c] (hcheck : checkOf i s = none)
    (heffect : effectOf i s = s.skipIf (decide c)) : ∃ t, exec i s = .next t ∧
      t.pc = (if c then s.pc + 4#16 else s.pc + 2#16) ∧ KeepsAllBut [] s t :=
  ⟨s.skipIf (decide c), heffect ▸ exec_of_check hcheck, s.skipIf_decide_pc c, (KeepsAllBut.refl _ s).advance⟩

/-- Settles O31: SE Vx, kk is the conditional skip on `V[x] = kk`. -/
theorem seImmediateSkipsIfEqual : Obligations.SeImmediateSkipsIfEqual :=
  ⟨fun _ hw => decode_of_rowSelects (i := .seImm 0#4 0#8) hw, fun _ _ _ => exec_conditionalSkip rfl rfl⟩

/-- Settles O32: SNE Vx, kk is the conditional skip on `V[x] ≠ kk`. -/
theorem sneImmediateSkipsIfNotEqual : Obligations.SneImmediateSkipsIfNotEqual :=
  ⟨fun _ hw => decode_of_rowSelects (i := .sneImm 0#4 0#8) hw, fun _ _ _ => exec_conditionalSkip rfl rfl⟩

/-- Settles O33: SE Vx, Vy is the conditional skip on `V[x] = V[y]`. -/
theorem seRegisterSkipsIfEqual : Obligations.SeRegisterSkipsIfEqual :=
  ⟨fun _ hw => decode_of_rowSelects (i := .seReg 0#4 0#4) hw, fun _ _ _ => exec_conditionalSkip rfl rfl⟩

/-- Settles O34: SNE Vx, Vy is the conditional skip on `V[x] ≠ V[y]`. -/
theorem sneRegisterSkipsIfDifferent : Obligations.SneRegisterSkipsIfDifferent :=
  ⟨fun _ hw => decode_of_rowSelects (i := .sneReg 0#4 0#4) hw, fun _ _ _ => exec_conditionalSkip rfl rfl⟩

end Sys2Proof.Machine
end

section
/-!
The register, arithmetic and random instructions (43_arithmetic.md): what the flag computations are as numbers, then
the two shapes an effect has, a result into `V[x]` with no flag and a result with a flag written last (R151); each
instruction but RND, which also counts its draw, is one of the two with its own result.
-/
namespace Sys2Proof.Machine

/-! ### Flags as numbers (R10, R150) -/

theorem boolToByte_decide_toNat (c : Prop) [Decidable c] : (boolToByte (decide c)).toNat = if c then 1 else 0 := by
  by_cases hc : c <;> simp [boolToByte, hc]

theorem carry_toNat (a b : Byte) : (carry a b).toNat = if 255 < a.toNat + b.toNat then 1 else 0 :=
  boolToByte_decide_toNat _

theorem notBorrow_toNat (a b : Byte) : (notBorrow a b).toNat = if b.toNat ≤ a.toNat then 1 else 0 :=
  boolToByte_decide_toNat _

theorem lowBit_toNat (v : Byte) : (lowBit v).toNat = v.toNat % 2 := by
  have hlsb : v.getLsbD 0 = decide (v.toNat % 2 = 1) := Nat.testBit_zero v.toNat
  rw [lowBit, hlsb, boolToByte_decide_toNat]
  split <;> omega

theorem highBit_toNat (v : Byte) : (highBit v).toNat = v.toNat / 128 := by
  have hmsb : v.getLsbD 7 = decide (128 ≤ v.toNat) := BitVec.msb_eq_decide v
  rw [highBit, hmsb, boolToByte_decide_toNat]
  have hlt := v.isLt
  split <;> omega

/-! ### Results as numbers (R150) -/

theorem byte_sub_toNat (a b : Byte) : (a - b).toNat = (256 + a.toNat - b.toNat) % 256 := by
  rw [BitVec.toNat_sub]
  have hlt := b.isLt
  omega

theorem byte_shiftRight_one_toNat (v : Byte) : (v >>> 1).toNat = v.toNat / 2 := by
  rw [BitVec.toNat_ushiftRight, Nat.shiftRight_one]

theorem byte_shiftLeft_one_toNat (v : Byte) : (v <<< 1).toNat = v.toNat * 2 % 256 := by
  rw [BitVec.toNat_shiftLeft, Nat.shiftLeft_eq]

/-! ### The two shapes of an effect -/

/-- An instruction that checks nothing and writes one result changes `V[x]` and `pc` alone, VF among the registers it
leaves unless `x` is VF. -/
theorem exec_result {i : Instr} {s : State} {x : Nibble} {v : Byte} (hcheck : checkOf i s = none)
    (heffect : effectOf i s = (s.setReg x v).advance 2#16) : ∃ t, exec i s = .next t ∧ t.reg x = v ∧
      (∀ r, r ≠ x → t.reg r = s.reg r) ∧ t.pc = s.pc + 2#16 ∧ KeepsAllBut [.regs] s t := by
  have hreg (r : Nibble) : ((s.setReg x v).advance 2#16).reg r = if r = x then v else s.reg r := s.setReg_reg x v r
  exact ⟨(s.setReg x v).advance 2#16, heffect ▸ exec_of_check hcheck, (hreg x).trans (if_pos rfl),
    fun r hr => (hreg r).trans (if_neg hr), rfl, (KeepsAllBut.refl _ s).setReg.advance⟩

/-- An instruction that checks nothing and writes a result and then a flag leaves the flag in VF also when `x` is VF,
where the result is lost (R151). -/
theorem exec_resultFlag {i : Instr} {s : State} {x : Nibble} {v f : Byte} {m n : Nat} (hcheck : checkOf i s = none)
    (heffect : effectOf i s = (s.setResultFlag x v f).advance 2#16) (hf : f.toNat = m) (hv : v.toNat = n) :
    ∃ t, exec i s = .next t ∧ (t.reg vf).toNat = m ∧ (x ≠ vf → (t.reg x).toNat = n) ∧
      (∀ r, r ≠ x → r ≠ vf → t.reg r = s.reg r) ∧ t.pc = s.pc + 2#16 ∧ KeepsAllBut [.regs] s t := by
  have hreg (r : Nibble) : ((s.setResultFlag x v f).advance 2#16).reg r =
      if r = vf then f else if r = x then v else s.reg r := s.setResultFlag_reg x v f r
  refine ⟨(s.setResultFlag x v f).advance 2#16, heffect ▸ exec_of_check hcheck, ?_, fun hx => ?_,
    fun r hr hvf => ?_, rfl, (KeepsAllBut.refl _ s).setReg.setReg.advance⟩
  · rw [hreg, if_pos rfl, hf]
  · rw [hreg, if_neg hx, if_pos rfl, hv]
  · rw [hreg, if_neg hvf, if_neg hr]

/-! ### A result and a flag -/

/-- Settles O42: the result is the sum modulo 256, the flag its carry. -/
theorem addSetsSumAndCarry : Obligations.AddSetsSumAndCarry :=
  ⟨fun _ hw => decode_of_rowSelects (i := .addReg 0#4 0#4) hw, fun _ _ _ =>
    exec_resultFlag rfl rfl (carry_toNat _ _) (BitVec.toNat_add _ _)⟩

/-- Settles O43: the result is `V[x] - V[y]` modulo 256, the flag its not-borrow. -/
theorem subSetsDifferenceAndNotBorrow : Obligations.SubSetsDifferenceAndNotBorrow :=
  ⟨fun _ hw => decode_of_rowSelects (i := .subReg 0#4 0#4) hw, fun _ _ _ =>
    exec_resultFlag rfl rfl (notBorrow_toNat _ _) (byte_sub_toNat _ _)⟩

/-- Settles O44: the result is half of `V[y]`, the flag its bit 0. -/
theorem shrShiftsVyRight : Obligations.ShrShiftsVyRight :=
  ⟨fun _ hw => decode_of_rowSelects (i := .shrReg 0#4 0#4) hw, fun _ _ _ =>
    exec_resultFlag rfl rfl (lowBit_toNat _) (byte_shiftRight_one_toNat _)⟩

/-- Settles O45: the result is `V[y] - V[x]` modulo 256, the flag its not-borrow. -/
theorem subnSetsDifferenceAndNotBorrow : Obligations.SubnSetsDifferenceAndNotBorrow :=
  ⟨fun _ hw => decode_of_rowSelects (i := .subnReg 0#4 0#4) hw, fun _ _ _ =>
    exec_resultFlag rfl rfl (notBorrow_toNat _ _) (byte_sub_toNat _ _)⟩

/-- Settles O46: the result is twice `V[y]` modulo 256, the flag its bit 7. -/
theorem shlShiftsVyLeft : Obligations.ShlShiftsVyLeft :=
  ⟨fun _ hw => decode_of_rowSelects (i := .shlReg 0#4 0#4) hw, fun _ _ _ =>
    exec_resultFlag rfl rfl (highBit_toNat _) (byte_shiftLeft_one_toNat _)⟩

/-! ### A result and no flag -/

/-- Settles O36: the result is the immediate byte. -/
theorem ldImmediateLoadsTheByte : Obligations.LdImmediateLoadsTheByte :=
  ⟨fun _ hw => decode_of_rowSelects (i := .ldImm 0#4 0#8) hw, fun _ _ _ => exec_result rfl rfl⟩

/-- Settles O37: the result is the sum modulo 256. -/
theorem addImmediateWrapsWithoutFlag : Obligations.AddImmediateWrapsWithoutFlag := by
  refine ⟨fun _ hw => decode_of_rowSelects (i := .addImm 0#4 0#8) hw, fun x kk s => ?_⟩
  obtain ⟨t, hexec, hresult, hframe⟩ := exec_result (i := .addImm x kk) (s := s) rfl rfl
  exact ⟨t, hexec, hresult ▸ BitVec.toNat_add _ _, hframe⟩

/-- Settles O38: the result is `V[y]`. -/
theorem ldRegisterCopies : Obligations.LdRegisterCopies :=
  ⟨fun _ hw => decode_of_rowSelects (i := .ldReg 0#4 0#4) hw, fun _ _ _ => exec_result rfl rfl⟩

/-- Settles O39: the result is the bitwise OR. -/
theorem orCombinesBitwise : Obligations.OrCombinesBitwise := by
  refine ⟨fun _ hw => decode_of_rowSelects (i := .orReg 0#4 0#4) hw, fun x y s => ?_⟩
  obtain ⟨t, hexec, hresult, hframe⟩ := exec_result (i := .orReg x y) (s := s) rfl rfl
  exact ⟨t, hexec, fun _ _ => hresult ▸ BitVec.getLsbD_or, hframe⟩

/-- Settles O40: the result is the bitwise AND. -/
theorem andCombinesBitwise : Obligations.AndCombinesBitwise := by
  refine ⟨fun _ hw => decode_of_rowSelects (i := .andReg 0#4 0#4) hw, fun x y s => ?_⟩
  obtain ⟨t, hexec, hresult, hframe⟩ := exec_result (i := .andReg x y) (s := s) rfl rfl
  exact ⟨t, hexec, fun _ _ => hresult ▸ BitVec.getLsbD_and, hframe⟩

/-- Settles O41: the result is the bitwise exclusive OR. -/
theorem xorCombinesBitwise : Obligations.XorCombinesBitwise := by
  refine ⟨fun _ hw => decode_of_rowSelects (i := .xorReg 0#4 0#4) hw, fun x y s => ?_⟩
  obtain ⟨t, hexec, hresult, hframe⟩ := exec_result (i := .xorReg x y) (s := s) rfl rfl
  exact ⟨t, hexec, fun _ _ => hresult ▸ BitVec.getLsbD_xor, hframe⟩

/-! ### RND -/

/-- Settles O48: RND's effect is one draw and the write of the masked byte, which is the byte of the draw counter's old
value. -/
theorem rndMasksOneFreeByte : Obligations.RndMasksOneFreeByte := by
  refine ⟨fun _ hw => decode_of_rowSelects (i := .rnd 0#4 0#8) hw, fun x kk s => ?_⟩
  have hreg (r : Nibble) : (effectOf (.rnd x kk) s).reg r = if r = x then s.randomByte &&& kk else s.reg r :=
    s.drawn.setReg_reg x _ r
  exact ⟨effectOf (.rnd x kk) s, exec_of_check rfl, (hreg x).trans (if_pos rfl), rfl,
    fun r hr => (hreg r).trans (if_neg hr), rfl, effectOf_frame (.rnd x kk) s⟩

end Sys2Proof.Machine
end

section
/-!
The index register and the loads and stores through it (44_index_memory.md): the three instructions that write `I` by
one lemma, the two faults of a range of writes, and what LD B, LD [I] and LD Vx,[I] leave in each byte or register.
-/
namespace Sys2Proof.Machine

/-! ### The index register -/

/-- An instruction that checks nothing and writes `I` changes `I` and `pc` alone (R180, R181, R182). -/
theorem exec_setI {i : Instr} {s : State} {v : Word} {n : Nat} (hcheck : checkOf i s = none)
    (heffect : effectOf i s = (s.setI v).advance 2#16) (hv : v.toNat = n) : ∃ t, exec i s = .next t ∧
      t.I.toNat = n ∧ t.pc = s.pc + 2#16 ∧ KeepsAllBut [.index] s t :=
  ⟨(s.setI v).advance 2#16, heffect ▸ exec_of_check hcheck, hv, rfl, (KeepsAllBut.refl _ s).setI.advance⟩

/-- R182: five times a byte fits the width of `I`. -/
theorem glyphAddress_toNat (v : Byte) : (wide v * 5#16).toNat = v.toNat * 5 := by
  rw [BitVec.toNat_mul, wide_toNat, BitVec.toNat_ofNat]
  have hlt := v.isLt
  omega

/-- Settles O47: `I` receives the address, zero-extended. -/
theorem ldIndexLoadsTheAddress : Obligations.LdIndexLoadsTheAddress :=
  ⟨fun _ hw => decode_of_rowSelects (i := .ldI 0#12) hw, fun nnn _ => exec_setI rfl rfl (zext16_toNat nnn)⟩

/-- Settles O56: `I` receives a 16-bit sum, which is the sum modulo 65536. -/
theorem addIndexWrapsAtItsWidth : Obligations.AddIndexWrapsAtItsWidth := by
  refine ⟨fun _ hw => decode_of_rowSelects (i := .addI 0#4) hw, fun x s => exec_setI rfl rfl ?_⟩
  rw [BitVec.toNat_add, wide_toNat]

/-- Settles O57: `I` receives the glyph's address, which does not wrap (`glyphAddress_toNat`). -/
theorem ldFontPointsAtTheGlyph : Obligations.LdFontPointsAtTheGlyph :=
  ⟨fun _ hw => decode_of_rowSelects (i := .ldF 0#4) hw, fun _ _ => exec_setI rfl rfl (glyphAddress_toNat _)⟩

/-! ### The faults of a range of writes (R53, R226) -/

/-- Writes that begin in the reserved region report their first address. -/
theorem State.writesCheck_reserved {s : State} {n : Nat} (hn : 0 < n) (h : s.I.toNat < 0x200) :
    s.writesCheck n = some (.reservedWrite s.I.toNat) := by
  rw [State.writesCheck_eq, if_neg hn.ne', if_pos h]

/-- Writes that begin above the reserved region and leave memory report the first address outside it. -/
theorem State.writesCheck_outOfBounds {s : State} {n : Nat} (hn : 0 < n) (hlow : 0x200 ≤ s.I.toNat)
    (h : 0x1000 < s.I.toNat + n) : s.writesCheck n = some (.memOutOfBounds (max s.I.toNat 0x1000)) := by
  rw [State.writesCheck_eq, if_neg hn.ne', if_neg hlow.not_gt, if_neg h.not_ge]

/-! ### LD B -/

@[simp] theorem State.addr_inj (s : State) {j k : Nat} : s.addr j = s.addr k ↔ j = k :=
  Nat.add_left_cancel_iff

/-- R183: LD B's three digits, at three different addresses, and every other byte as before. -/
theorem effectOf_ldB_byteAt (x : Nibble) (s : State) (a : Nat) : (effectOf (.ldB x) s).byteAt a =
    if a = s.addr 2 then s.reg x % 10#8 else if a = s.addr 1 then s.reg x / 10#8 % 10#8
    else if a = s.addr 0 then s.reg x / 100#8 else s.byteAt a := by
  simp [effectOf]

/-- Settles O58: LD B writes three bytes when its check passes and takes the check's fault when it does not. -/
theorem ldBcdStoresThreeDigits : Obligations.LdBcdStoresThreeDigits := by
  refine ⟨fun _ hw => decode_of_rowSelects (i := .ldB 0#4) hw, fun x s hlow hhigh => ?_,
    fun x s hlow => exec_of_fault (State.writesCheck_reserved (by decide) hlow),
    fun x s hout => exec_of_fault (State.writesCheck_outOfBounds (by decide) (by omega) hout)⟩
  have hbyte := effectOf_ldB_byteAt x s
  have hframe : KeepsAllBut [.memory] s (effectOf (.ldB x) s) := (KeepsAllBut.refl _ s).setByte.setByte.setByte.advance
  refine ⟨effectOf (.ldB x) s, exec_of_check (State.writesCheck_none (.inr ⟨hlow, hhigh⟩)), ?_, ?_, ?_,
    fun a ha => ?_, rfl, hframe⟩
  · simp [hbyte]
  · simp [hbyte]
  · simp [hbyte]
  · rw [hbyte, if_neg (ha 2 (by decide)), if_neg (ha 1 (by decide)), if_neg (ha 0 (by decide))]

/-! ### LD [I], Vx and LD Vx, [I] -/

theorem nthReg_toNat_self (r : Nibble) : nthReg r.toNat = r := by
  rw [nthReg, BitVec.ofNat_toNat, BitVec.setWidth_eq]

/-- R184: a stored register is read back at its own address. -/
theorem effectOf_storeRegs_byteAt {x r : Nibble} (h : r.toNat < x.toNat) (s : State) :
    (effectOf (.storeRegs x) s).byteAt (s.addr r.toNat) = s.reg r := by
  have hstored : (s.storeRange x.toNat).byteAt (s.addr r.toNat) = s.reg (nthReg (s.addr r.toNat - s.I.toNat)) := by
    rw [State.storeRange_byteAt, if_pos (by simp only [State.addr]; omega)]
  rw [effectOf, State.advance_byteAt, hstored, State.addr, Nat.add_sub_cancel_left, nthReg_toNat_self]

/-- R184: a byte at none of the stored addresses is as before. -/
theorem effectOf_storeRegs_byteAt_of_ne {x : Nibble} {s : State} {a : Nat} (h : ∀ k < x.toNat, a ≠ s.addr k) :
    (effectOf (.storeRegs x) s).byteAt a = s.byteAt a := by
  have houtside : ¬(s.I.toNat ≤ a ∧ a < s.I.toNat + x.toNat) := by
    rintro ⟨hle, hlt⟩
    exact h (a - s.I.toNat) (by omega) (Nat.add_sub_cancel' hle).symm
  rw [effectOf, State.advance_byteAt, State.storeRange_byteAt, if_neg houtside]

/-- R185: the registers below `x` come from memory, the others are as before. -/
theorem effectOf_loadRegs_reg (x r : Nibble) (s : State) : (effectOf (.loadRegs x) s).reg r =
    if r.toNat < x.toNat then s.byteAt (s.addr r.toNat) else s.reg r :=
  s.loadRange_reg x.toNat x.isLt.le r

/-- Settles O59: LD [I] stores its registers when its check passes and takes the check's fault when it does not. -/
theorem ldStoresRegistersBelowX : Obligations.LdStoresRegistersBelowX := by
  refine ⟨fun _ hw => decode_of_rowSelects (i := .storeRegs 0#4) hw, fun x s hfit => ?_,
    fun x s hx hlow => exec_of_fault (State.writesCheck_reserved hx hlow),
    fun x s hx hout => exec_of_fault (State.writesCheck_outOfBounds hx (by omega) hout)⟩
  have hframe : KeepsAllBut [.memory] s (effectOf (.storeRegs x) s) :=
    (State.storeRange_frame (by decide) s x.toNat).advance
  have hpc : (effectOf (.storeRegs x) s).pc = s.pc + 2#16 := congrArg (· + 2#16) (s.storeRange_pc x.toNat)
  exact ⟨effectOf (.storeRegs x) s, exec_of_check (State.writesCheck_none hfit),
    fun r hr => effectOf_storeRegs_byteAt hr s, fun a ha => effectOf_storeRegs_byteAt_of_ne ha, hpc, hframe⟩

/-- Settles O60: LD Vx,[I] loads its registers when its check passes and takes the check's fault when it does not. -/
theorem ldLoadsRegistersBelowX : Obligations.LdLoadsRegistersBelowX := by
  refine ⟨fun _ hw => decode_of_rowSelects (i := .loadRegs 0#4) hw, fun x s hfit => ?_,
    fun x s hx hout => exec_of_fault (State.readsCheck_some hx hout)⟩
  have hframe : KeepsAllBut [.regs] s (effectOf (.loadRegs x) s) :=
    (State.loadRange_frame (by decide) s x.toNat).advance
  have hpc : (effectOf (.loadRegs x) s).pc = s.pc + 2#16 := congrArg (· + 2#16) (s.loadRange_pc x.toNat)
  exact ⟨effectOf (.loadRegs x) s, exec_of_check (State.readsCheck_none hfit),
    fun r => effectOf_loadRegs_reg x r s, hpc, hframe⟩

/-- Settles O21: LD [I] keeps `I`, so LD Vx,[I] reads each register below `x` at the address it was stored at. -/
theorem storeThenLoadRestoresRegisters : Obligations.StoreThenLoadRestoresRegisters := by
  intro s x hlow hhigh
  refine ⟨effectOf (.storeRegs x) s, exec_of_check (State.writesCheck_none (.inr ⟨hlow, hhigh⟩)),
    fun u huI hubyte => ?_⟩
  have hI : u.I = s.I := huI.trans (effectOf_frame (.storeRegs x) s .index (by simp [partsWritten]))
  refine ⟨effectOf (.loadRegs x) u, exec_of_check (State.readsCheck_none (.inr (hI ▸ hhigh))), fun r => ?_⟩
  rw [effectOf_loadRegs_reg]
  by_cases hr : r.toNat < x.toNat
  · rw [if_pos hr, if_pos hr]
    calc u.byteAt (u.addr r.toNat) = u.byteAt (s.addr r.toNat) := by rw [State.addr, hI, State.addr]
      _ = (effectOf (.storeRegs x) s).byteAt (s.addr r.toNat) := hubyte _
      _ = s.reg r := effectOf_storeRegs_byteAt hr s
  · rw [if_neg hr, if_neg hr]

end Sys2Proof.Machine
end

section
/-!
The keypad instructions (45_keypad.md): the key check of SKP and SKNP, then what each does with the latches. SKP is a
conditional skip, and LD Vx, K is a write of one result or nothing at all.
-/
namespace Sys2Proof.Machine

/-- A value of 16 or more names no key, and the fault carries it (R200). -/
theorem keyCheck_some {v : Byte} (h : 16 ≤ v.toNat) : keyCheck v = some (.keyIndexOutOfRange v) := by
  rw [keyCheck_eq, if_pos h]

/-! ### SKP and SKNP -/

/-- R201: SKP's effect is the conditional skip on the latch of the key that `V[x]` names. -/
theorem effectOf_skp {x k : Nibble} {s : State} (hk : (s.reg x).toNat = k.toNat) :
    effectOf (.skp x) s = s.skipIf (decide (s.key k = true)) := by
  rw [effectOf, keyOf_of_toNat hk, Bool.decide_eq_true]

/-- R202: with the key up, SKNP's effect is the skip alone. -/
theorem effectOf_sknp_up {x k : Nibble} {s : State} (hk : (s.reg x).toNat = k.toNat) (hup : s.key k = false) :
    effectOf (.sknp x) s = s.advance 4#16 := by
  rw [effectOf, keyOf_of_toNat hk, if_neg (Bool.eq_false_iff.1 hup)]

/-- R202: with the key pressed, SKNP's effect clears its latch and does not skip. -/
theorem effectOf_sknp_pressed {x k : Nibble} {s : State} (hk : (s.reg x).toNat = k.toNat) (hdown : s.key k = true) :
    effectOf (.sknp x) s = (s.setKey k false).advance 2#16 := by
  rw [effectOf, keyOf_of_toNat hk, if_pos hdown]

/-- Settles O50: with a key number SKP passes its check and is the conditional skip on that key's latch; with none it
takes the check's fault. -/
theorem skpSkipsIfPressed : Obligations.SkpSkipsIfPressed :=
  ⟨fun _ hw => decode_of_rowSelects (i := .skp 0#4) hw,
    fun _ _ _ hk => exec_conditionalSkip (keyCheck_none hk) (effectOf_skp hk),
    fun _ _ hbig => exec_of_fault (keyCheck_some hbig)⟩

/-- Settles O51: with a key number SKNP passes its check and skips or clears the latch, as the latch says; with none it
takes the check's fault. -/
theorem sknpSkipsOrClearsTheLatch : Obligations.SknpSkipsOrClearsTheLatch := by
  refine ⟨fun _ hw => decode_of_rowSelects (i := .sknp 0#4) hw, fun x k s hk hup => ?_, fun x k s hk hdown => ?_,
    fun _ _ hbig => exec_of_fault (keyCheck_some hbig)⟩
  · exact ⟨s.advance 4#16, effectOf_sknp_up hk hup ▸ exec_of_check (keyCheck_none hk), rfl,
      (KeepsAllBut.refl _ s).advance⟩
  · have hkey (q : Nibble) : ((s.setKey k false).advance 2#16).key q = if q = k then false else s.key q :=
      s.setKey_key k false q
    exact ⟨(s.setKey k false).advance 2#16, effectOf_sknp_pressed hk hdown ▸ exec_of_check (keyCheck_none hk),
      (hkey k).trans (if_pos rfl), fun q hq => (hkey q).trans (if_neg hq), rfl, (KeepsAllBut.refl _ s).setKey.advance⟩

/-! ### LD Vx, K -/

/-- R203: with some key pressed LD Vx, K writes 1, whichever key the scan finds. -/
theorem effectOf_ldVxK_pressed (x : Nibble) {s : State} (h : ∃ k : Nibble, s.key k = true) :
    effectOf (.ldVxK x) s = (s.setReg x 1#8).advance 2#16 := by
  obtain ⟨k, hfirst⟩ := Option.isSome_iff_exists.1 (s.firstKey_isSome_iff.2 h)
  simp only [effectOf, hfirst, State.firstKey_some hfirst, boolToByte, if_true]

/-- R203: with no key pressed LD Vx, K has no effect. -/
theorem effectOf_ldVxK_none (x : Nibble) {s : State} (h : ∀ k : Nibble, s.key k = false) :
    effectOf (.ldVxK x) s = s := by
  simp only [effectOf, State.firstKey_none.2 h]

/-- Settles O52: LD Vx, K checks nothing; its effect is the result 1 with some key pressed, and nothing with none. -/
theorem ldKeyWaitsForAKey : Obligations.LdKeyWaitsForAKey := by
  refine ⟨fun _ hw => decode_of_rowSelects (i := .ldVxK 0#4) hw,
    fun x s hpressed => exec_result rfl (effectOf_ldVxK_pressed x hpressed), fun x s hnone => ?_⟩
  calc exec (.ldVxK x) s = .next (effectOf (.ldVxK x) s) := exec_of_check rfl
    _ = .next s := by rw [effectOf_ldVxK_none x hnone]

end Sys2Proof.Machine
end

section
/-!
The timer instructions (46_timers.md): none checks anything. LD Vx, DT is a write of one result; the two that set a
timer write that timer and `pc` alone, which is their frame.
-/
namespace Sys2Proof.Machine

/-- Settles O53: the result is the delay timer, which a write to a register leaves as it was. -/
theorem ldReadsTheDelayTimer : Obligations.LdReadsTheDelayTimer :=
  ⟨fun _ hw => decode_of_rowSelects (i := .ldVxDT 0#4) hw, fun _ _ => exec_result rfl rfl⟩

/-- Settles O54: the delay timer receives `V[x]`, and the frame lists no part but that timer. -/
theorem ldSetsTheDelayTimer : Obligations.LdSetsTheDelayTimer :=
  ⟨fun _ hw => decode_of_rowSelects (i := .ldDTVx 0#4) hw, fun x s =>
    ⟨effectOf (.ldDTVx x) s, exec_of_check rfl, State.setDT_DT s (s.reg x), rfl, effectOf_frame (.ldDTVx x) s⟩⟩

/-- Settles O55: the sound timer receives `V[x]`, and the frame lists no part but that timer. -/
theorem ldSetsTheSoundTimer : Obligations.LdSetsTheSoundTimer :=
  ⟨fun _ hw => decode_of_rowSelects (i := .ldSTVx 0#4) hw, fun x s =>
    ⟨effectOf (.ldSTVx x) s, exec_of_check rfl, State.setST_ST s (s.reg x), rfl, effectOf_frame (.ldSTVx x) s⟩⟩

end Sys2Proof.Machine
end

section
/-!
The events of the host (60_exceptions.md R224 to R227, R236, R240 to R244, R251). A STEP and a LOAD_ROM each take a
fault, which writes the fault record alone, or have an effect, which leaves the record as it was; no other event but
RESET writes the record at all.
-/
namespace Sys2Proof.Machine

/-! ### What an event can do -/

/-- A STEP takes a fault or has the effect of one instruction (R72, R225). -/
theorem step_raise_or_effect {s t : State} (h : step s = .next t) :
    (∃ f, t = s.raise f) ∨ ∃ i, t = effectOf i s := by
  obtain ⟨-, ⟨-, rfl⟩ | ⟨-, -, rfl⟩ | ⟨-, i, -, hexec⟩⟩ := step_cases h
  · exact .inl ⟨_, rfl⟩
  · exact .inl ⟨_, rfl⟩
  · obtain ⟨f, -, rfl⟩ | ⟨-, rfl⟩ := exec_cases hexec
    · exact .inl ⟨f, rfl⟩
    · exact .inr ⟨i, rfl⟩

/-- A LOAD_ROM takes a fault or copies its bytes (R264). -/
theorem loadRom_raise_or_copy {s t : State} {bytes : List Byte} (h : loadRom bytes s = .next t) :
    (∃ f, t = s.raise f) ∨ t = s.setBytes Config.progStart bytes := by
  obtain ⟨f, -, rfl⟩ | ⟨-, rfl⟩ := guarded_cases h
  · exact .inl ⟨f, rfl⟩
  · exact .inr rfl

@[simp] theorem State.setBytes_fault (bs : List Byte) (s : State) (a : Nat) : (s.setBytes a bs).fault = s.fault := by
  rw [State.setBytes_eq]

@[simp] theorem State.setBytes_redraw (bs : List Byte) (s : State) (a : Nat) :
    (s.setBytes a bs).redraw = s.redraw := by
  rw [State.setBytes_eq]

theorem tick_running {s : State} (hrun : s.fault = none) :
    tick s = .next ((s.setDT (countDown s.DT)).setST (countDown s.ST)) := by
  unfold tick
  rw [hrun]

theorem tick_ne_next {s : State} {f : Fault} (hhalted : s.fault = some f) (t : State) : tick s ≠ .next t := by
  intro h
  have hrun := (tick_cases h).1
  rw [hrun] at hhalted
  cases hhalted

/-! ### The fault record -/

/-- An event other than RESET takes a fault or leaves the fault record as it was (R224, R227). -/
theorem deliver_raise_or_keeps_fault {e : Event} {s t : State} (he : e ≠ .reset) (h : deliver e s = .next t) :
    (∃ f, t = s.raise f) ∨ t.fault = s.fault := by
  cases e with
  | reset => exact absurd rfl he
  | loadRom bytes =>
    obtain hfault | rfl := loadRom_raise_or_copy h
    · exact .inl hfault
    · exact .inr (State.setBytes_fault bytes s _)
  | step =>
    obtain hfault | ⟨i, rfl⟩ := step_raise_or_effect h
    · exact .inl hfault
    · exact .inr (effectOf_fault i s)
  | tick =>
    obtain ⟨-, rfl⟩ := tick_cases h
    exact .inr rfl
  | keySet _ _ | redrawAck | read => cases h; exact .inr rfl

/-- Settles O11: RESET leaves no record, and the record of any other event is that of a fault it took, which changes
nothing else. -/
theorem faultsArePrecise : Obligations.FaultsArePrecise := by
  intro e s t f hrun h hf
  by_cases he : e = .reset
  · subst he; cases h; cases hf
  · obtain ⟨g, rfl⟩ | hkeep := deliver_raise_or_keeps_fault he h
    · cases hf; rfl
    · rw [hkeep, hrun] at hf; cases hf

/-- Settles O12: an event other than RESET replaces the record by that of a fault it took, or keeps it. -/
theorem onlyResetLeavesTheHaltedState : Obligations.OnlyResetLeavesTheHaltedState := by
  refine ⟨fun e s t f hhalted h hclear => ?_, fun s => ⟨s.restart, rfl, rfl⟩⟩
  by_contra he
  obtain ⟨g, rfl⟩ | hkeep := deliver_raise_or_keeps_fault he h
  · cases hclear
  · rw [hkeep, hhalted] at hclear; cases hclear

/-- Settles O7: a halted core answers STEP with the record that halted it, and TICK is a running core's alone. -/
theorem haltedCoreTakesNoStepOrTick : Obligations.HaltedCoreTakesNoStepOrTick := by
  refine fun s f hhalted => ⟨fun t => ?_, tick_ne_next hhalted⟩
  rw [step_halted hhalted]
  exact nofun

/-! ### TICK, KEY_SET and the parked core -/

theorem countDown_toNat (v : Byte) : (countDown v).toNat = v.toNat - 1 := by
  unfold countDown
  split
  case isTrue hzero => rw [hzero]; rfl
  case isFalse hpos => bv_omega

/-- Settles O23: TICK writes the two timers, each counted down (`countDown_toNat`). -/
theorem tickDecrementsBothTimers : Obligations.TickDecrementsBothTimers :=
  ⟨fun s hrun => ⟨(s.setDT (countDown s.DT)).setST (countDown s.ST), tick_running hrun, countDown_toNat s.DT,
    countDown_toNat s.ST, rfl, (KeepsAllBut.refl _ s).setDT.setST⟩, fun _ _ => tick_ne_next⟩

/-- Settles O24: KEY_SET is one write of one latch. -/
theorem keySetWritesOneLatch : Obligations.KeySetWritesOneLatch := fun s k b =>
  ⟨s.setKey k b, rfl, (s.setKey_key k b k).trans (if_pos rfl), fun q hq => (s.setKey_key k b q).trans (if_neg hq), rfl,
    (KeepsAllBut.refl _ s).setKey⟩

/-- R251: the word of a self-jump at `p` decodes to a JP whose target is `p`. -/
theorem decode_selfJump {p : Word} (hp : p.toNat ≤ 0xFFF) :
    ∃ nnn, decode (0x1000#16 ||| p) = .ok (.jp nnn) ∧ zext16 nnn = p :=
  ⟨_, decode_top1 (selfJump_fields hp).1, (selfJump_fields hp).2⟩

theorem State.Parked.step {s : State} (h : s.Parked) : step s = .next s := by
  obtain ⟨hrun, hlo, hhi, hword⟩ := h
  obtain ⟨nnn, hdec, htarget⟩ := decode_selfJump (p := s.pc) (by omega)
  calc Machine.step s = exec (.jp nnn) s := step_decoded hrun ((fetchable_iff s.pc).2 ⟨hlo, hhi⟩) (hword ▸ hdec)
    _ = .next (s.setPc (zext16 nnn)) := exec_of_check rfl
    _ = .next s := by rw [htarget]; rfl

/-- Settles O22: a STEP runs the self-jump, which writes `pc` over itself; a TICK writes none of what `Parked` reads. -/
theorem parkedCoreStaysPut : Obligations.ParkedCoreStaysPut := fun s h =>
  ⟨h.step, (s.setDT (countDown s.DT)).setST (countDown s.ST), tick_running h.1, h, rfl⟩

/-! ### REDRAW_ACK -/

/-- R34: an instruction sets `redraw` (CLS and DRW) or leaves it as it was. -/
theorem effectOf_redraw (i : Instr) (s : State) :
    (effectOf i s).redraw = true ∨ (effectOf i s).redraw = s.redraw := by
  cases i with
  | cls | drw _ _ _ => exact .inl rfl
  | _ => exact .inr (effectOf_frame _ s .redrawFlag (by simp [partsWritten]))

/-- R243: an event other than REDRAW_ACK and RESET leaves a set `redraw` set. -/
theorem deliver_keeps_redraw {e : Event} {s t : State} (hack : e ≠ .redrawAck) (hreset : e ≠ .reset)
    (h : deliver e s = .next t) (hset : s.redraw = true) : t.redraw = true := by
  cases e with
  | reset => exact absurd rfl hreset
  | redrawAck => exact absurd rfl hack
  | loadRom bytes =>
    obtain ⟨f, rfl⟩ | rfl := loadRom_raise_or_copy h
    · exact hset
    · exact (State.setBytes_redraw bytes s _).trans hset
  | step =>
    obtain ⟨f, rfl⟩ | ⟨i, rfl⟩ := step_raise_or_effect h
    · exact hset
    · exact (effectOf_redraw i s).elim id fun hkeep => hkeep.trans hset
  | tick =>
    obtain ⟨-, rfl⟩ := tick_cases h
    exact hset
  | keySet _ _ | read => cases h; exact hset

/-- Settles O25: REDRAW_ACK is one write of `redraw`, and every event but it and RESET keeps a set `redraw` set. -/
theorem onlyTheAcknowledgementClearsRedraw : Obligations.OnlyTheAcknowledgementClearsRedraw := by
  refine ⟨fun s => ⟨s.setRedraw false, rfl, rfl, rfl, (KeepsAllBut.refl _ s).setRedraw⟩, fun e s t h hset hclear => ?_⟩
  by_contra hother
  obtain ⟨hack, hreset⟩ := not_or.1 hother
  exact Bool.false_ne_true (hclear.symm.trans (deliver_keeps_redraw hack hreset h hset))

end Sys2Proof.Machine
end

section
/-!
What LOAD_ROM writes (R264) and what no event but RESET writes (R31, R53, R262): a copy of bytes is memory between its
first and its last address and nothing else; a write that passes its check lies from 0x200 on.
-/
namespace Sys2Proof.Machine

/-! ### A copy of bytes -/

/-- The `k`-th byte of a copy is read back at its own address. -/
theorem State.setBytes_byteAt_add (bs : List Byte) (s : State) (a : Nat) {k : Nat} (h : k < bs.length) :
    (s.setBytes a bs).byteAt (a + k) = bs[k] := by
  rw [State.setBytes_byteAt, dif_pos ⟨Nat.le_add_right a k, Nat.add_lt_add_left h a⟩]
  simp only [Nat.add_sub_cancel_left]

/-- A byte before the copy or after it is as before. -/
theorem State.setBytes_byteAt_outside (bs : List Byte) (s : State) {a b : Nat} (h : b < a ∨ a + bs.length ≤ b) :
    (s.setBytes a bs).byteAt b = s.byteAt b := by
  rw [State.setBytes_byteAt, dif_neg (by omega)]

theorem KeepsAllBut.setBytes {l : List Part} {s t : State} (h : KeepsAllBut l s t) (hl : Part.memory ∈ l) (a : Nat)
    (bs : List Byte) : KeepsAllBut l s (t.setBytes a bs) := by
  induction bs generalizing t a with
  | nil => exact h
  | cons b bs ih => exact ih (h.setByte hl) (a + 1)

/-! ### LOAD_ROM -/

theorem loadRom_fits {bytes : List Byte} (s : State) (h : bytes.length ≤ Config.maxRom) :
    loadRom bytes s = .next (s.setBytes Config.progStart bytes) := by
  rw [loadRom, if_neg h.not_gt, guarded_none]

theorem loadRom_tooLong {bytes : List Byte} (s : State) (h : Config.maxRom < bytes.length) :
    loadRom bytes s = .next (s.raise (.romTooLarge bytes.length)) := by
  rw [loadRom, if_pos h, guarded_some]

/-- Settles O26: a program that fits is one copy of its bytes from 0x200 on, and a longer one takes the fault. -/
theorem loadRomCopiesTheProgram : Obligations.LoadRomCopiesTheProgram := by
  refine ⟨fun bytes s hfit => ?_, fun bytes s hlong => loadRom_tooLong s hlong⟩
  have hpc : (s.setBytes Config.progStart bytes).pc = s.pc := by rw [State.setBytes_eq]
  exact ⟨s.setBytes Config.progStart bytes, loadRom_fits s hfit, fun _ => State.setBytes_byteAt_add bytes s _,
    fun _ => State.setBytes_byteAt_outside bytes s, hpc, (KeepsAllBut.refl _ s).setBytes (by decide) _ bytes⟩

/-! ### The reserved region -/

/-- No write that passes its check goes to the reserved region (R53). -/
theorem State.ne_addr_of_writesCheck {s : State} {n k a : Nat} (hc : s.writesCheck n = none) (hk : k < n)
    (ha : a < 0x200) : a ≠ s.addr k := by
  have hlow : 0x200 ≤ s.I.toNat := (State.range_of_writesCheck hc (by omega)).1
  exact (ha.trans_le (hlow.trans (Nat.le_add_right _ k))).ne

/-- Of the instructions, LD B and LD [I] alone write memory, and their check guards the reserved region. -/
theorem effectOf_keeps_reserved {i : Instr} {s : State} (hc : checkOf i s = none) {a : Nat} (ha : a < 0x200) :
    (effectOf i s).byteAt a = s.byteAt a := by
  cases i with
  | ldB x =>
    have hne : ∀ k < 3, a ≠ s.addr k := fun k hk => State.ne_addr_of_writesCheck hc hk ha
    rw [effectOf_ldB_byteAt, if_neg (hne 2 (by decide)), if_neg (hne 1 (by decide)), if_neg (hne 0 (by decide))]
  | storeRegs x => exact effectOf_storeRegs_byteAt_of_ne fun k hk => State.ne_addr_of_writesCheck hc hk ha
  | _ => exact effectOf_frame _ s .memory (by simp [partsWritten]) a

theorem exec_keeps_reserved {i : Instr} {s t : State} (h : exec i s = .next t) {a : Nat} (ha : a < 0x200) :
    t.byteAt a = s.byteAt a := by
  obtain ⟨f, -, rfl⟩ | ⟨hc, rfl⟩ := exec_cases h
  · exact s.raise_byteAt f a
  · exact effectOf_keeps_reserved hc ha

theorem step_keeps_reserved {s t : State} (h : step s = .next t) {a : Nat} (ha : a < 0x200) :
    t.byteAt a = s.byteAt a := by
  obtain ⟨-, ⟨-, rfl⟩ | ⟨-, -, rfl⟩ | ⟨-, i, -, hexec⟩⟩ := step_cases h
  · exact s.raise_byteAt _ a
  · exact s.raise_byteAt _ a
  · exact exec_keeps_reserved hexec ha

theorem loadRom_keeps_reserved {bytes : List Byte} {s t : State} (h : loadRom bytes s = .next t) {a : Nat}
    (ha : a < 0x200) : t.byteAt a = s.byteAt a := by
  obtain ⟨f, rfl⟩ | rfl := loadRom_raise_or_copy h
  · exact s.raise_byteAt f a
  · exact State.setBytes_byteAt_outside bytes s (.inl ha)

/-- Settles O17: RESET gives the listed state, whose first bytes are the table, and no other event writes a byte of
the reserved region. -/
theorem reservedRegionIsNeverOverwritten : Obligations.ReservedRegionIsNeverOverwritten := by
  refine ⟨fun s => ⟨s.restart, rfl, s.restart_atReset.glyphBytes⟩, fun e s t he h a ha => ?_⟩
  cases e with
  | reset => exact absurd rfl he
  | loadRom bytes => exact loadRom_keeps_reserved h ha
  | step => exact step_keeps_reserved h ha
  | tick =>
    obtain ⟨-, rfl⟩ := tick_cases h
    rfl
  | keySet _ _ | redrawAck | read => cases h; rfl

end Sys2Proof.Machine
end
